-- ==== Sys2Proof/Word.lean ====
section
/-!
DEFINITION. The plain words of the block: bytes, samples, index types, the two parts, natural operator names, and
what an outside agent can present (a bus word or one of the request lines). Notation of 00_scope rules R5, R9 and
30_encoding rules R61 to R63.
-/

namespace Sys2Proof

/-- One byte (20_memory R42). -/
abbrev Byte := BitVec 8

/-- A bus word, format B: `part` in bit 9, `isAddress` in bit 8, `value` in bits 7..0 (30_encoding R61). -/
abbrev BusWord := BitVec 10

/-- A register-write word, format W: `p` in bit 16, `reg` in bits 15..8, `value` in bits 7..0 (30_encoding R62). -/
abbrev RegWord := BitVec 17

/-- The resampling ratio, unsigned fixed point with 16 integer and 32 fraction bits (46_resampler R201). -/
abbrev Ratio := BitVec 48

/-- A signed 16-bit sample, two's complement (20_memory R43). -/
abbrev Sample := BitVec 16

/-- A slot index in hardware order: 0, 1, 2, 3 hold operators 1, 3, 2, 4 (00_scope R9). -/
abbrev SlotIx := Fin 4

/-- A channel within a part, `n` = 0..2 (30_encoding R62). -/
abbrev PartChan := Fin 3

/-- A channel of the core, `c` = 0..5 (00_scope R9). -/
abbrev Chan := Fin 6

/-- The two address/data port pairs: part 0 reaches channels 0 to 2, part 1 channels 3 to 5 (20_memory R40). -/
inductive Part where
  | part0
  | part1
  deriving DecidableEq, Repr

/-- The natural operators 1 to 4 of the algorithm descriptions (00_scope R9). -/
inductive Op where
  | op1
  | op2
  | op3
  | op4
  deriving DecidableEq, Repr

/-- A stereo pair of signed 16-bit samples, (left, right). -/
structure Pair where
  left  : Sample
  right : Sample
  deriving DecidableEq, Repr

/-- What an outside agent can present to the block (30_encoding R60, R61, R63; 70_reset R253): any bus word on the
bus port, or one of the request lines, each its own strobe; `HOUT` carries its ratio. -/
inductive Request where
  | bus (word : BusWord)
  | tick
  | hout (ratio : Ratio)
  | reset
  | kill
  deriving DecidableEq, Repr

/-- The words the decoder reads: what is presented from outside (formats B and S), and the register-write word of
format W, which a data write forms inside the block and which is never carried on the bus (30_encoding R62). -/
inductive Encoded where
  | request (r : Request)
  | regWord (w : RegWord)
  deriving DecidableEq, Repr

end Sys2Proof
end

