-- ==== Sys2Proof/Machine/Bank.lean ====
section
/-!
DEFINITION. Fixed numbers of like things as plain records: the two address latches, the four slots of a channel, the
six channels, with indexed read, indexed write, and the same function applied to all.
-/

namespace Sys2Proof.Machine

/-- One thing per part. -/
structure Bank2 (α : Type) where
  b0 : α
  b1 : α
  deriving DecidableEq, Repr

/-- One thing per slot of a channel, in hardware slot order (00_scope R9). -/
structure Bank4 (α : Type) where
  b0 : α
  b1 : α
  b2 : α
  b3 : α
  deriving DecidableEq, Repr

/-- One thing per channel. -/
structure Bank6 (α : Type) where
  b0 : α
  b1 : α
  b2 : α
  b3 : α
  b4 : α
  b5 : α
  deriving DecidableEq, Repr

variable {α β : Type}

def Bank2.get (b : Bank2 α) : Part → α
  | .part0 => b.b0
  | .part1 => b.b1

def Bank2.set (b : Bank2 α) (i : Part) (x : α) : Bank2 α :=
  match i with
  | .part0 => { b with b0 := x }
  | .part1 => { b with b1 := x }

def Bank4.get (b : Bank4 α) (i : SlotIx) : α :=
  match i with
  | 0 => b.b0
  | 1 => b.b1
  | 2 => b.b2
  | 3 => b.b3

def Bank4.set (b : Bank4 α) (i : SlotIx) (x : α) : Bank4 α :=
  match i with
  | 0 => { b with b0 := x }
  | 1 => { b with b1 := x }
  | 2 => { b with b2 := x }
  | 3 => { b with b3 := x }

def Bank4.map (f : α → β) (b : Bank4 α) : Bank4 β := ⟨f b.b0, f b.b1, f b.b2, f b.b3⟩

def Bank4.any (p : α → Bool) (b : Bank4 α) : Bool := p b.b0 || p b.b1 || p b.b2 || p b.b3

def Bank4.all (p : α → Bool) (b : Bank4 α) : Bool := p b.b0 && p b.b1 && p b.b2 && p b.b3

def Bank6.get (b : Bank6 α) (i : Chan) : α :=
  match i with
  | 0 => b.b0
  | 1 => b.b1
  | 2 => b.b2
  | 3 => b.b3
  | 4 => b.b4
  | 5 => b.b5

def Bank6.set (b : Bank6 α) (i : Chan) (x : α) : Bank6 α :=
  match i with
  | 0 => { b with b0 := x }
  | 1 => { b with b1 := x }
  | 2 => { b with b2 := x }
  | 3 => { b with b3 := x }
  | 4 => { b with b4 := x }
  | 5 => { b with b5 := x }

def Bank6.map (f : α → β) (b : Bank6 α) : Bank6 β := ⟨f b.b0, f b.b1, f b.b2, f b.b3, f b.b4, f b.b5⟩

def Bank6.any (p : α → Bool) (b : Bank6 α) : Bool := p b.b0 || p b.b1 || p b.b2 || p b.b3 || p b.b4 || p b.b5

def Bank6.all (p : α → Bool) (b : Bank6 α) : Bool := p b.b0 && p b.b1 && p b.b2 && p b.b3 && p b.b4 && p b.b5

/-- The sum over the six channels, in the order 0 to 5. -/
def Bank6.sum (f : α → Int) (b : Bank6 α) : Int := f b.b0 + f b.b1 + f b.b2 + f b.b3 + f b.b4 + f b.b5

end Sys2Proof.Machine
end

