-- ==== Sys2Proof/Syntax.lean ====
section
/-!
DEFINITION. The operations of the block: one constructor per mnemonic of spec/opcode_table.json (30_encoding R60).
`value` is the data byte as written, undefined bits included; a meaning slices it.
-/

namespace Sys2Proof

/-- The complete list of operations (30_encoding R60). Operator registers take the part, the slot index in hardware
order and the channel in the part; channel registers the part and the channel in the part. -/
inductive Instr where
  /-- `AW`: address write (44 R150). -/
  | aw (part : Part) (value : Byte)
  /-- `DW`: data write (44 R151). -/
  | dw (part : Part) (value : Byte)
  /-- `WR_LFO` (44 R155). -/
  | wrLfo (value : Byte)
  /-- `WR_KEY` (44 R156). -/
  | wrKey (value : Byte)
  /-- `WR_DTMUL` (44 R157). -/
  | wrDtmul (part : Part) (slot : SlotIx) (n : PartChan) (value : Byte)
  /-- `WR_TL` (44 R158). -/
  | wrTl (part : Part) (slot : SlotIx) (n : PartChan) (value : Byte)
  /-- `WR_KSAR` (44 R159). -/
  | wrKsar (part : Part) (slot : SlotIx) (n : PartChan) (value : Byte)
  /-- `WR_AMDR` (44 R160). -/
  | wrAmdr (part : Part) (slot : SlotIx) (n : PartChan) (value : Byte)
  /-- `WR_SR` (44 R161). -/
  | wrSr (part : Part) (slot : SlotIx) (n : PartChan) (value : Byte)
  /-- `WR_SLRR` (44 R162). -/
  | wrSlrr (part : Part) (slot : SlotIx) (n : PartChan) (value : Byte)
  /-- `WR_SSGEG` (44 R163). -/
  | wrSsgeg (part : Part) (slot : SlotIx) (n : PartChan) (value : Byte)
  /-- `WR_FNLO` (44 R165). -/
  | wrFnlo (part : Part) (n : PartChan) (value : Byte)
  /-- `WR_FNHI` (44 R164); its part and channel select nothing. -/
  | wrFnhi (part : Part) (n : PartChan) (value : Byte)
  /-- `WR_FBALG` (44 R166). -/
  | wrFbalg (part : Part) (n : PartChan) (value : Byte)
  /-- `WR_PANSENS` (44 R167). -/
  | wrPansens (part : Part) (n : PartChan) (value : Byte)
  /-- `WR_IGNORED` (44 R154): a write to an unmapped address; its operands select nothing. -/
  | wrIgnored (part : Part) (reg : Byte) (value : Byte)
  /-- `TICK`: one native-rate sample (45 R190). -/
  | tick
  /-- `HOUT`: one host-rate sample (46 R202). -/
  | hout (ratio : Ratio)
  /-- `RESET` (47 R210). -/
  | reset
  /-- `KILL`: hard stop (47 R212). -/
  | kill
  deriving DecidableEq, Repr

end Sys2Proof
end

