-- ==== Sys2Proof/Machine/Operands.lean ====
section
/-!
DEFINITION. Operand assembly (30_encoding rule R65): how operands select a channel or a slot, and how stored fields
widen to the values the datapath uses. A field of a data byte is a plain bit slice, zero-extended; the conversions
that depend on the configuration stand with the unit that uses them.
-/

namespace Sys2Proof.Machine

/-- The channel a write reaches, `c = 3*p + n` (30_encoding R62). -/
def chanOf (part : Part) (n : PartChan) : Chan :=
  match part with
  | .part0 => ⟨n.val, by omega⟩
  | .part1 => ⟨3 + n.val, by omega⟩

/-- `SLOT_OF_OP`: operators 1, 2, 3, 4 are stored in slots 0, 2, 1, 3 (00_scope R9). -/
def slotOfOp : Op → SlotIx
  | .op1 => 0
  | .op2 => 2
  | .op3 => 1
  | .op4 => 3

/-- `OP_OF_SLOT`, the same table read the other way (00_scope R9). -/
def opOfSlot : SlotIx → Op
  | 0 => .op1
  | 1 => .op3
  | 2 => .op2
  | 3 => .op4

/-- The channel of a key write's index: 0, 1, 2, 4, 5, 6 are channels 0 to 5, and 3 and 7 are ignored (44 R156). -/
def keyChannel (idx : BitVec 3) : Option Chan :=
  match idx.toNat with
  | 0 => some 0
  | 1 => some 1
  | 2 => some 2
  | 4 => some 3
  | 5 => some 4
  | 6 => some 5
  | _ => none

/-- The enable bit of a natural operator in a key write: bit `3 + op` of the data byte (44 R156). -/
def keyBit (value : Byte) : Op → Bool
  | .op1 => value.getLsbD 4
  | .op2 => value.getLsbD 5
  | .op3 => value.getLsbD 6
  | .op4 => value.getLsbD 7

/-- The 4-bit release rate widened to the 5-bit rate domain, 0 staying 0 (40 R86). -/
def releaseRate (rr : BitVec 4) : Nat := if rr.toNat = 0 then 0 else 2 * rr.toNat + 1

/-- `MULHALF`: the frequency multiplier in half-steps (43 R140). -/
def mulHalf (mul : BitVec 4) : Nat := if mul.toNat = 0 then 1 else 2 * mul.toNat

end Sys2Proof.Machine
end

