-- ==== Sys2Proof/Config.lean ====
section
/-!
DEFINITION. The configuration record `Cfg` of 00_scope rule R4, the constants the source fixes, and the one free
value of the model. The record the machine runs with is `Machine.cfg` in Sys2Proof/Machine/Params.lean.
-/

namespace Sys2Proof

/-- What a tick does while an enable whose semantics the source does not give is set (00_scope R4, 45 R191). -/
inductive Policy where
  | refuse
  | ignore
  deriving DecidableEq, Repr

/-- The configuration record of 00_scope R4, fixed for a run; not state (10_state R22). `N_CH`, `N_SLOT`,
`PHASE_BITS` and `ENV_FP` are fixed by the source and are in the types and constants below. -/
structure Cfg where
  /-- `ENV_MAX`: the attenuation that means silent, in 1/64 dB. -/
  envMax : Nat
  /-- `TL_STEP`: attenuation units per step of total level. -/
  tlStep : Nat
  /-- `SL_ATT`: attenuation units of a sustain level. -/
  slAtt : BitVec 4 → Nat
  /-- `QUIET_THRESHOLD`: total attenuation above which an operator outputs 0. -/
  quietThreshold : Nat
  /-- `PEAK`: peak amplitude of one operator. -/
  peak : Nat
  /-- `OPWAVE`: phase and total attenuation to a signed sample. -/
  opWave : BitVec 32 → Nat → Int
  /-- `MOD_GAIN`: phase units added per unit of modulation input. -/
  modGain : Nat
  /-- `FB_SHIFT`: right shift of the feedback sum, for feedback 1..7. -/
  fbShift : BitVec 3 → Nat
  /-- `KC_NOTE`: low two bits of the key code from F-number bits 10..7. -/
  kcNote : BitVec 4 → BitVec 2
  /-- `KC_SHIFT`: key-code contribution to the envelope rate. -/
  kcShift : BitVec 2 → BitVec 5 → Nat
  /-- `DT_TAB`: detune amounts by magnitude and key code. -/
  dtTab : BitVec 2 → BitVec 5 → Nat
  /-- `MASTER_CLOCK` in Hz; no rule of the block reads it (43 R142). -/
  masterClock : Nat
  /-- `RS_FRAC`: fraction bits of the resampler's position and ratio. -/
  rsFrac : Nat
  /-- `RS_INT`: integer bits of the resampler's ratio. -/
  rsInt : Nat
  /-- `LFO_POLICY`. -/
  lfoPolicy : Policy
  /-- `SSG_POLICY`. -/
  ssgPolicy : Policy

/-- `N_CH`, fixed by the source (00_scope R4). -/
def numChannels : Nat := 6

/-- `ENV_FP`: the fixed-point scale of the envelope accumulator, fixed by the source (00_scope R4). -/
def envFp : Nat := 65536

/-- `ONE = 2^RS_FRAC`, the resampler's 1.0 (00_scope R4). -/
def Cfg.one (g : Cfg) : Nat := 2 ^ g.rsFrac

/-- The ratios of the format are the numbers below this one, `RS_INT` integer and `RS_FRAC` fraction bits (46 R201). -/
def Cfg.ratioEnd (g : Cfg) : Nat := 2 ^ (g.rsInt + g.rsFrac)

/-- `ENV_TOP = ENV_MAX * ENV_FP`, the accumulator value that means silent (00_scope R4, 40 R80). -/
def Cfg.envTop (g : Cfg) : Nat := g.envMax * envFp

/-- THE FREE VALUE of the model (log entry 6): the magnitude of the operator function before the named properties of
41 R113 are imposed on it, by quarter-wave phase (0 to 2^30) and attenuation. It has no body: nothing can evaluate it
or prove a value of it. `Machine.opWaveOf` shapes it. -/
opaque Config.waveMagnitude : Nat → Nat → Nat

/-- The named properties of `OPWAVE` (41_operator R113), which hold of the exact real function truncated toward zero
and which the spec asks a model to assume of an opaque one. -/
structure OpWaveLaws (f : BitVec 32 → Nat → Int) (peak quiet envMax : Nat) : Prop where
  bound     : ∀ theta a, -(peak : Int) ≤ f theta a ∧ f theta a ≤ peak
  zeroPhase : ∀ a, f 0 a = 0 ∧ f (BitVec.ofNat 32 (2 ^ 31)) a = 0
  odd       : ∀ theta a, f (-theta) a = -f theta a
  half      : ∀ theta a, f (theta + BitVec.ofNat 32 (2 ^ 31)) a = -f theta a
  mirror    : ∀ theta a, theta.toNat ≤ 2 ^ 31 → f (BitVec.ofNat 32 (2 ^ 31) - theta) a = f theta a
  sign      : ∀ theta a, (theta.toNat ≤ 2 ^ 31 → 0 ≤ f theta a) ∧ (2 ^ 31 ≤ theta.toNat → f theta a ≤ 0)
  atPeak    : f (BitVec.ofNat 32 (2 ^ 30)) 0 = peak ∧ f (BitVec.ofNat 32 (3 * 2 ^ 30)) 0 = -(peak : Int)
  monoAtt   : ∀ theta a b, a ≤ b → (f theta b).natAbs ≤ (f theta a).natAbs
  quietZero : ∀ theta a, quiet < a → f theta a = 0
  quietPeak : peak = 8191 → ∀ theta a, 5010 ≤ a → f theta a = 0
  silent    : ∀ theta, f theta envMax = 0

/-- The constraints 00_scope R4 puts on the open fields, and the one that the opcode table puts on the resampler's
formats by giving the ratio of `HOUT` 48 bits (log entry 11). -/
structure Cfg.Admissible (g : Cfg) : Prop where
  envMaxPos  : 0 < g.envMax
  envMaxFour : 4 ∣ g.envMax
  envMaxTop  : g.envMax < 2 ^ 15
  peakFits   : 4 * g.peak ≤ 32767
  quietTop   : g.quietThreshold ≤ g.envMax - 1
  quietLow   : g.peak = 8191 → 5009 ≤ g.quietThreshold
  ratioBits  : g.rsInt + g.rsFrac = 48
  wave       : OpWaveLaws g.opWave g.peak g.quietThreshold g.envMax

end Sys2Proof
end

