-- ==== Sys2Proof/Machine/Params.lean ====
section
/-!
DEFINITION. The configuration record the machine runs with: the default column of 00_scope rule R4 (log entry 5),
with the operator function as the free value shaped by the named properties of 41_operator rule R113 (log entry 6).
-/

namespace Sys2Proof.Machine

/-! ## The operator function -/

/-- Distance of a phase from the nearest zero of the sine, 0 to 2^30: the phase folded into the first quarter cycle
(the symmetries of 41 R113). -/
def quarterPhase (theta : BitVec 32) : Nat :=
  let h := theta.toNat % 2 ^ 31
  min h (2 ^ 31 - h)

/-- Magnitude by quarter phase and attenuation: bounded by the peak, exactly the peak at the crest without
attenuation, never rising with attenuation (`OPWAVE_bound`, `OPWAVE_peak`, `OPWAVE_mono_att` of 41 R113); otherwise
free. -/
def waveMagnitudeOf (raw : Nat → Nat → Nat) (peak quarter : Nat) : Nat → Nat
  | 0 => if quarter = 2 ^ 30 then peak else min peak (raw quarter 0)
  | att + 1 => min (waveMagnitudeOf raw peak quarter att) (raw quarter (att + 1))

/-- The total attenuation from which the operator function is 0 at the default peak (41 R113, `OPWAVE_quiet`). -/
def inaudibleFrom : Nat := 5010

/-- An operator function from a free magnitude: 0 above the quiet threshold, from `inaudibleFrom` on, and at the
zeros of the sine; else the magnitude with the sign of the half cycle (41 R113). -/
def opWaveOf (raw : Nat → Nat → Nat) (peak quiet : Nat) (theta : BitVec 32) (att : Nat) : Int :=
  if att > quiet ∨ inaudibleFrom ≤ att ∨ quarterPhase theta = 0 then 0
  else if theta.toNat < 2 ^ 31 then waveMagnitudeOf raw peak (quarterPhase theta) att
  else -(waveMagnitudeOf raw peak (quarterPhase theta) att : Int)

/-! ## Tables -/

/-- `KC_NOTE` by F-number bits 10..7 (43 R136). -/
def kcNoteTable : List (BitVec 2) := [0, 0, 0, 0, 0, 0, 0, 1, 2, 3, 3, 3, 3, 3, 3, 3]

/-- `DT_TAB` row of magnitude 1 by key code (43 R139). -/
def dtRow1 : List Nat :=
  [0, 0, 0, 0, 1, 1, 1, 1, 1, 1, 1, 1, 2, 2, 2, 2] ++ [2, 3, 3, 3, 4, 4, 4, 5, 5, 6, 6, 7, 8, 8, 8, 8]

/-- `DT_TAB` row of magnitude 2 by key code (43 R139). -/
def dtRow2 : List Nat :=
  [1, 1, 1, 1, 2, 2, 2, 2, 2, 3, 3, 3, 4, 4, 4, 5] ++ [5, 6, 6, 7, 8, 8, 9, 10, 11, 12, 13, 14, 16, 16, 16, 16]

/-- `DT_TAB` row of magnitude 3 by key code (43 R139). -/
def dtRow3 : List Nat :=
  [2, 2, 2, 2, 2, 3, 3, 3, 4, 4, 4, 5, 5, 6, 6, 7] ++ [8, 8, 9, 10, 11, 12, 13, 14, 16, 17, 19, 20, 22, 22, 22, 22]

/-- `DT_TAB[magnitude][key code]` (43 R139); the row of magnitude 0 is all zeros. -/
def dtTable (magnitude : BitVec 2) (kc : BitVec 5) : Nat :=
  match magnitude.toNat with
  | 0 => 0
  | 1 => dtRow1.getD kc.toNat 0
  | 2 => dtRow2.getD kc.toNat 0
  | _ => dtRow3.getD kc.toNat 0

/-- `SL_ATT`: 3 dB per step, and 93 dB for the last (40 R90). -/
def sustainAttenuation (sl : BitVec 4) : Nat := if sl.toNat < 15 then sl.toNat * 192 else 5952

/-! ## The record -/

/-- The default configuration of 00_scope R4 around a given operator function. -/
def defaultCfg (opWave : BitVec 32 → Nat → Int) : Cfg where
  envMax := 6144
  tlStep := 48
  slAtt := sustainAttenuation
  quietThreshold := 6143
  peak := 8191
  opWave := opWave
  modGain := 2 ^ 21
  fbShift := fun fb => 9 - fb.toNat
  kcNote := fun top => kcNoteTable.getD top.toNat 0
  kcShift := fun ks kc => kc.toNat >>> (3 - ks.toNat)
  dtTab := dtTable
  masterClock := 7670453
  rsFrac := 32
  rsInt := 16
  lfoPolicy := .refuse
  ssgPolicy := .refuse

/-- The machine's configuration: the defaults, with the free operator function. -/
def cfg : Cfg := defaultCfg (opWaveOf Config.waveMagnitude 8191 6143)

end Sys2Proof.Machine
end

