-- ==== Sys2Proof/Machine/State.lean ====
section
/-!
DEFINITION. The state of one instance of the block (10_state rules R10 to R20) as plain data, its value right after
reset (10_state R24), and the reasons a step can stop (60_exceptions R222).
-/

namespace Sys2Proof.Machine

/-- The envelope state of a slot (10_state R17, 40 R81). -/
inductive EgState where
  | attack
  | decay
  | sustain
  | release
  | off
  deriving DecidableEq, Repr

/-- One operator slot: its parameter registers (10_state R11), phase accumulator (R15), envelope state (R17) and
envelope accumulator (R16). -/
structure Slot where
  dt      : BitVec 3
  mul     : BitVec 4
  tl      : BitVec 7
  ks      : BitVec 2
  ar      : BitVec 5
  am      : Bool
  dr      : BitVec 5
  sr      : BitVec 5
  sl      : BitVec 4
  rr      : BitVec 4
  ssgEn   : Bool
  ssgMode : BitVec 3
  phase   : BitVec 32
  egState : EgState
  envAcc  : Nat
  deriving DecidableEq, Repr

/-- One channel: its four slots in hardware order, its parameter registers (10_state R12) and the feedback history
(R18; `fbHist0` is the newest). -/
structure Channel where
  slot    : Bank4 Slot
  alg     : BitVec 3
  fb      : BitVec 3
  block   : BitVec 3
  fnum    : BitVec 11
  panL    : Bool
  panR    : Bool
  ams     : BitVec 2
  fms     : BitVec 3
  fbHist0 : Sample
  fbHist1 : Sample
  deriving DecidableEq, Repr

/-- The resampler: its position, a fixed-point number with `RS_FRAC` fraction bits that the source clips nowhere (log
entry 11), and the previous and current native sample pair (10_state R20). -/
structure Resampler where
  pos  : Nat
  prev : Pair
  cur  : Pair
  deriving DecidableEq, Repr

/-- The whole state of one instance of the block, the record `Core` of 10_state R10. -/
structure Chip where
  ch        : Bank6 Channel
  addrLatch : Bank2 Byte
  fnumLatch : BitVec 6
  lfoEnable : Bool
  lfoFreq   : BitVec 3
  rs        : Resampler
  deriving DecidableEq, Repr

/-- The state of the model: the block, and around it what the spec makes an input or an output of a run.
`live` says that a `RESET` has been performed (70_reset R240; log entry 4); `inputs` are the operations the outside
agents still present, oldest first (60_exceptions R226; log entry 1); `outputs` are the sample pairs handed back so
far, oldest first (70_reset R252; log entry 3). -/
structure State where
  chip    : Chip
  live    : Bool
  inputs  : List Request
  outputs : List Pair
  deriving DecidableEq, Repr

/-- Why a step stops with a fault. -/
inductive Fault where
  /-- Raised by every operation but `RESET` while no `RESET` has been performed: every field is then unspecified and
  a model must not pick a value (70_reset R240, 93 U6). Safe: the model stops where the hardware goes on. -/
  | beforeReset
  deriving DecidableEq, Repr

/-- Why a step is refused. -/
inductive Refusal where
  /-- Answered by a refused arm of exec for an instruction that has no meaning yet. Safe. -/
  | notModelled (mnemonic : String)
  /-- `TICK` (also inside `HOUT`) while `lfoEnable` is set, under `LFO_POLICY = refuse`: "LFO semantics not in source"
  (45 R191). Safe: the model stops where the hardware goes on. -/
  | lfoNotInSource
  /-- `TICK` (also inside `HOUT`) while some slot has `ssgEn` set, under `SSG_POLICY = refuse`: "SSG-EG semantics not
  in source" (45 R191). Safe: the model stops where the hardware goes on. -/
  | ssgNotInSource
  deriving DecidableEq, Repr

/-- What an operation answers. -/
abbrev Result := Host.Outcome State Fault Refusal

/-- A slot after reset (10_state R24): every parameter 0, phase 0, `Off` at `ENV_TOP`. -/
def resetSlot (g : Cfg) : Slot where
  dt := 0
  mul := 0
  tl := 0
  ks := 0
  ar := 0
  am := false
  dr := 0
  sr := 0
  sl := 0
  rr := 0
  ssgEn := false
  ssgMode := 0
  phase := 0
  egState := .off
  envAcc := g.envTop

/-- A channel after reset (10_state R24): every parameter 0 but the two stereo enables, which are 1. -/
def resetChannel (g : Cfg) : Channel where
  slot := ⟨resetSlot g, resetSlot g, resetSlot g, resetSlot g⟩
  alg := 0
  fb := 0
  block := 0
  fnum := 0
  panL := true
  panR := true
  ams := 0
  fms := 0
  fbHist0 := 0
  fbHist1 := 0

/-- The block after reset (10_state R24). -/
def resetChip (g : Cfg) : Chip where
  ch := ⟨resetChannel g, resetChannel g, resetChannel g, resetChannel g, resetChannel g, resetChannel g⟩
  addrLatch := ⟨0, 0⟩
  fnumLatch := 0
  lfoEnable := false
  lfoFreq := 0
  rs := { pos := 0, prev := ⟨0, 0⟩, cur := ⟨0, 0⟩ }

/-- The state right after reset under a configuration (10_state R24, 70_reset R241): no operation presented yet, no
sample handed back. -/
def State.resetWith (g : Cfg) : State where
  chip := resetChip g
  live := true
  inputs := []
  outputs := []

/-- The machine right after reset. -/
def State.reset : State := State.resetWith cfg

end Sys2Proof.Machine
end

