-- ==== Sys2Proof/Machine/Envelope.lean ====
section
/-!
DEFINITION. The envelope generator (40_envelope): the key-scaled rate and the per-sample increment, the key events,
and the per-tick update `EGTICK` of one slot.
-/

namespace Sys2Proof.Machine

/-- The slot's attenuation `att = envAcc >> 16`, in 1/64 dB (40 R80, 10_state R16). -/
def attenuation (sl : Slot) : Nat := sl.envAcc >>> 16

/-- A slot is keyed when it is in Attack, Decay or Sustain (40 R81). -/
def EgState.keyed : EgState → Bool
  | .attack => true
  | .decay => true
  | .sustain => true
  | .release => false
  | .off => false

/-- `KSR`: the key-scaled rate; rate register 0 means no movement (40 R87). -/
def ksr (g : Cfg) (r5 : Nat) (ks : BitVec 2) (kc : BitVec 5) : Nat :=
  if r5 = 0 then 0 else min 63 (2 * r5 + g.kcShift ks kc)

/-- `completionSamples = 2^(18 - q)` with `q = k >> 2` (40 R88). -/
def completionSamples (k : Nat) : Nat := 2 ^ (18 - k >>> 2)

/-- `EGINC`: the increment of the accumulator per tick (40 R88). -/
def egInc (g : Cfg) (r5 : Nat) (ks : BitVec 2) (kc : BitVec 5) : Nat :=
  let k := ksr g r5 ks kc
  if k = 0 then 0 else g.envTop / completionSamples k

/-- The attack step: the increment scaled by the current attenuation, at least 1 unless the increment is 0
(40 R96). -/
def attackDelta (g : Cfg) (inc att : Nat) : Nat := if inc = 0 then 0 else max 1 (inc * att / g.envMax)

/-- The accumulator raised by an increment, clamped at silence (40 R97 to R99). -/
def riseTo (g : Cfg) (acc inc : Nat) : Nat := min g.envTop (acc + inc)

/-- Attack step (40 R96): natural subtraction stops at 0, as the rule's `max(0, …)` does. -/
def egAttack (g : Cfg) (kc : BitVec 5) (sl : Slot) : Slot :=
  let acc := sl.envAcc - attackDelta g (egInc g sl.ar.toNat sl.ks kc) (attenuation sl)
  { sl with envAcc := acc, egState := if acc >>> 16 = 0 then .decay else sl.egState }

/-- Decay step (40 R97): the test follows the step and uses the new value. -/
def egDecay (g : Cfg) (kc : BitVec 5) (sl : Slot) : Slot :=
  let acc := riseTo g sl.envAcc (egInc g sl.dr.toNat sl.ks kc)
  { sl with envAcc := acc, egState := if acc >>> 16 ≥ g.slAtt sl.sl then .sustain else sl.egState }

/-- Sustain step (40 R98): no transition. -/
def egSustain (g : Cfg) (kc : BitVec 5) (sl : Slot) : Slot :=
  { sl with envAcc := riseTo g sl.envAcc (egInc g sl.sr.toNat sl.ks kc) }

/-- Release step (40 R99). DESIGN CHOICE (log entry 17): a slot already at `ENV_TOP` with `rr = 0` goes to Off at this
tick, as R99's pseudocode and R82's table have it; R99's prose on corner cases says that it stays in Release. -/
def egRelease (g : Cfg) (kc : BitVec 5) (sl : Slot) : Slot :=
  let acc := riseTo g sl.envAcc (egInc g (releaseRate sl.rr) sl.ks kc)
  { sl with envAcc := acc, egState := if acc = g.envTop then .off else sl.egState }

/-- `EGTICK` of a slot whose channel has key code `kc` (40 R95); `Off` does not move (R100). -/
def egTick (g : Cfg) (kc : BitVec 5) (sl : Slot) : Slot :=
  match sl.egState with
  | .attack => egAttack g kc sl
  | .decay => egDecay g kc sl
  | .sustain => egSustain g kc sl
  | .release => egRelease g kc sl
  | .off => sl

/-- `KEYON` of a slot: an un-keyed slot starts Attack from silence with phase 0; a keyed slot is left as it is
(40 R92). -/
def keyOn (g : Cfg) (sl : Slot) : Slot :=
  if sl.egState.keyed then sl else { sl with egState := .attack, envAcc := g.envTop, phase := 0 }

/-- `KEYOFF` of a slot: a keyed slot goes to Release; its accumulator and phase stay (40 R93). -/
def keyOff (sl : Slot) : Slot := if sl.egState.keyed then { sl with egState := .release } else sl

end Sys2Proof.Machine
end

