-- ==== Sys2Proof/WellFormed.lean ====
section
/-!
DEFINITION. Which instruction terms are encodings of the block. The operand types already exclude a channel in part
of 3 and a slot index above 3, so the one check is that the address of an ignored write is unmapped, read off the
address map of 20_memory rule R48 (not off the decoder).
-/

namespace Sys2Proof

/-- The address map of 20_memory R48: does `(part, reg)` hold a register? Global registers exist on part 0 only, and
within 0x30..0xB7 a number whose low two bits are 3 is unmapped. -/
def isMapped (part : Part) (reg : Byte) : Bool :=
  let r := reg.toNat
  (part == .part0 && (r == 0x22 || r == 0x28)) ||
  (0x30 ≤ r && r ≤ 0x9F && r % 4 != 3) ||
  (0xA0 ≤ r && r ≤ 0xA2) ||
  (0xA4 ≤ r && r ≤ 0xA6) ||
  (0xB0 ≤ r && r ≤ 0xB2) ||
  (0xB4 ≤ r && r ≤ 0xB6)

/-- Well-formed instructions: every term is, but for an ignored write to an address that the map gives a register. -/
def Instr.wf : Instr → Bool
  | .aw _ _ => true
  | .dw _ _ => true
  | .wrLfo _ => true
  | .wrKey _ => true
  | .wrDtmul _ _ _ _ => true
  | .wrTl _ _ _ _ => true
  | .wrKsar _ _ _ _ => true
  | .wrAmdr _ _ _ _ => true
  | .wrSr _ _ _ _ => true
  | .wrSlrr _ _ _ _ => true
  | .wrSsgeg _ _ _ _ => true
  | .wrFnlo _ _ _ => true
  | .wrFnhi _ _ _ => true
  | .wrFbalg _ _ _ => true
  | .wrPansens _ _ _ => true
  | .wrIgnored part reg _ => !isMapped part reg
  | .tick => true
  | .hout _ => true
  | .reset => true
  | .kill => true

end Sys2Proof
end

