-- ==== Sys2Proof/Decode.lean ====
section
/-!
DEFINITION. Decoding and encoding: bus words (30_encoding R61), register-write words in the priority order of R64,
request lines (R63); then the encoder, written from the same formats, and the reading of an opcode-table word. Every
bus word and every register-write word is legal (R66), so decoding an `Encoded` is total; only a bit count that no
format has is refused, by `none`.
-/

namespace Sys2Proof

/-! ## Fields -/

/-- The part bit of formats B and W. -/
def partOfBit (b : Bool) : Part := if b then .part1 else .part0

/-- The part bit to write for a part. -/
def partBit : Part → BitVec 1
  | .part0 => 0#1
  | .part1 => 1#1

/-- `p`, bit 16 of a register-write word (30_encoding R62). -/
def regWordPart (w : RegWord) : Part := partOfBit (w.getLsbD 16)

/-- `reg`, bits 15..8 of a register-write word (30_encoding R62). -/
def regWordReg (w : RegWord) : Byte := w.extractLsb' 8 8

/-- `value`, bits 7..0 of a register-write word (30_encoding R62). -/
def regWordValue (w : RegWord) : Byte := w.extractLsb' 0 8

/-- The register-write word `p ++ reg ++ value` (30_encoding R62). -/
def mkRegWord (part : Part) (reg value : Byte) : RegWord := partBit part ++ reg ++ value

/-- The bus word `part ++ isAddress ++ value` (30_encoding R61). -/
def mkBusWord (part : Part) (isAddress : BitVec 1) (value : Byte) : BusWord := partBit part ++ isAddress ++ value

/-- The channel in part, `reg[1:0]`; 3 is unmapped (30_encoding R62). -/
def regChan (reg : Byte) : Option PartChan :=
  if h : reg.toNat % 4 < 3 then some ⟨reg.toNat % 4, h⟩ else none

/-- The slot index, `reg[3:2]`, in hardware order (30_encoding R62). -/
def regSlot (reg : Byte) : SlotIx := ⟨reg.toNat / 4 % 4, Nat.mod_lt _ (by decide)⟩

/-- The family nibble, `reg[7:4]` (30_encoding R62). -/
def regFamily (reg : Byte) : Nat := reg.toNat / 16

/-! ## Decoding -/

/-- Decoding of an operator or channel register whose channel in part is `n` (30_encoding R64 rows 4 to 15). -/
def decodeBanked (part : Part) (reg : Byte) (n : PartChan) (value : Byte) : Instr :=
  if regFamily reg = 0x3 then .wrDtmul part (regSlot reg) n value
  else if regFamily reg = 0x4 then .wrTl part (regSlot reg) n value
  else if regFamily reg = 0x5 then .wrKsar part (regSlot reg) n value
  else if regFamily reg = 0x6 then .wrAmdr part (regSlot reg) n value
  else if regFamily reg = 0x7 then .wrSr part (regSlot reg) n value
  else if regFamily reg = 0x8 then .wrSlrr part (regSlot reg) n value
  else if regFamily reg = 0x9 then .wrSsgeg part (regSlot reg) n value
  else if reg.toNat / 4 = 0b101000 then .wrFnlo part n value
  else if reg.toNat / 4 = 0b101001 then .wrFnhi part n value
  else if reg.toNat / 4 = 0b101100 then .wrFbalg part n value
  else if reg.toNat / 4 = 0b101101 then .wrPansens part n value
  else .wrIgnored part reg value

/-- The register-address dispatch table (30_encoding R64), in its priority order. Row 3 is taken for every register
number whose low two bits are 3, as the opcode table does: outside 0x30..0xB7 the last row ignores it anyway. -/
def decodeReg (part : Part) (reg value : Byte) : Instr :=
  if part = .part0 ∧ reg = 0x22#8 then .wrLfo value
  else if part = .part0 ∧ reg = 0x28#8 then .wrKey value
  else
    match regChan reg with
    | none => .wrIgnored part reg value
    | some n => decodeBanked part reg n value

/-- Decoding of a register-write word (30_encoding R64). -/
def decodeRegWord (w : RegWord) : Instr := decodeReg (regWordPart w) (regWordReg w) (regWordValue w)

/-- Decoding of a bus word (30_encoding R61). -/
def decodeBus (w : BusWord) : Instr :=
  if w.getLsbD 8 then .aw (partOfBit (w.getLsbD 9)) (w.extractLsb' 0 8)
  else .dw (partOfBit (w.getLsbD 9)) (w.extractLsb' 0 8)

/-- The operation a request stands for (30_encoding R60, R61, R63). -/
def decodeRequest : Request → Instr
  | .bus w => decodeBus w
  | .tick => .tick
  | .hout ratio => .hout ratio
  | .reset => .reset
  | .kill => .kill

/-- Decoding of the words of all three formats. -/
def decode : Encoded → Instr
  | .request r => decodeRequest r
  | .regWord w => decodeRegWord w

/-! ## Encoding -/

/-- The register number of an operator register: family, slot index, channel in part (30_encoding R62). -/
def operatorReg (family : BitVec 4) (slot : SlotIx) (n : PartChan) : Byte :=
  family ++ BitVec.ofNat 2 slot.val ++ BitVec.ofNat 2 n.val

/-- The register number of a channel register: its upper six bits and the channel in part (30_encoding R62). -/
def channelReg (base : BitVec 6) (n : PartChan) : Byte := base ++ BitVec.ofNat 2 n.val

/-- The word of an instruction: a request for the operations of formats B and S, a register-write word for those of
format W. -/
def encode : Instr → Encoded
  | .aw part value => .request (.bus (mkBusWord part 1#1 value))
  | .dw part value => .request (.bus (mkBusWord part 0#1 value))
  | .wrLfo value => .regWord (mkRegWord .part0 0x22#8 value)
  | .wrKey value => .regWord (mkRegWord .part0 0x28#8 value)
  | .wrDtmul part slot n value => .regWord (mkRegWord part (operatorReg 0x3#4 slot n) value)
  | .wrTl part slot n value => .regWord (mkRegWord part (operatorReg 0x4#4 slot n) value)
  | .wrKsar part slot n value => .regWord (mkRegWord part (operatorReg 0x5#4 slot n) value)
  | .wrAmdr part slot n value => .regWord (mkRegWord part (operatorReg 0x6#4 slot n) value)
  | .wrSr part slot n value => .regWord (mkRegWord part (operatorReg 0x7#4 slot n) value)
  | .wrSlrr part slot n value => .regWord (mkRegWord part (operatorReg 0x8#4 slot n) value)
  | .wrSsgeg part slot n value => .regWord (mkRegWord part (operatorReg 0x9#4 slot n) value)
  | .wrFnlo part n value => .regWord (mkRegWord part (channelReg 0b101000#6 n) value)
  | .wrFnhi part n value => .regWord (mkRegWord part (channelReg 0b101001#6 n) value)
  | .wrFbalg part n value => .regWord (mkRegWord part (channelReg 0b101100#6 n) value)
  | .wrPansens part n value => .regWord (mkRegWord part (channelReg 0b101101#6 n) value)
  | .wrIgnored part reg value => .regWord (mkRegWord part reg value)
  | .tick => .request .tick
  | .hout ratio => .request (.hout ratio)
  | .reset => .request .reset
  | .kill => .request .kill

/-! ## The opcode table's words -/

/-- The word that `nbits` bits `w` of the opcode table stand for (log entry 10): up to 16 bits, a value of ten bits is
a bus word (format B); otherwise up to 24 bits, a value of seventeen bits is a register-write word (format W, a
missing bit 16 being 0); 48 bits are the ratio of `HOUT`. Nothing else is a word: the request lines have no bits. -/
def tableWord (nbits w : Nat) : Option Encoded :=
  if nbits = 0 then none
  else if nbits ≤ 16 ∧ w < 2 ^ 10 then some (.request (.bus (BitVec.ofNat 10 w)))
  else if nbits ≤ 24 ∧ w < 2 ^ 17 then some (.regWord (BitVec.ofNat 17 w))
  else if nbits = 48 ∧ w < 2 ^ 48 then some (.request (.hout (BitVec.ofNat 48 w)))
  else none

/-- The instruction the decoder reads from an opcode-table word. -/
def decodeTableWord (nbits w : Nat) : Option Instr := (tableWord nbits w).map decode

end Sys2Proof
end

