-- ==== Sys2Proof/Machine/Ops.lean ====
section
/-!
DEFINITION. The named operations over the state that the meanings are built from: reading and changing one channel or
one slot, the guard of the power-up state, taking the next request, handing back a sample pair, and placing a request.
The block takes no exception and has no mode (60_exceptions rules R220, R225, R228), so there is no exception entry
or return among them.
-/

namespace Sys2Proof.Machine

/-! ## One channel, one slot -/

/-- `ch[c]` with `f` applied to it. -/
def Chip.modifyChannel (chip : Chip) (c : Chan) (f : Channel → Channel) : Chip :=
  { chip with ch := chip.ch.set c (f (chip.ch.get c)) }

/-- `ch.slot[k]` with `f` applied to it. -/
def Channel.modifySlot (ch : Channel) (k : SlotIx) (f : Slot → Slot) : Channel :=
  { ch with slot := ch.slot.set k (f (ch.slot.get k)) }

/-- `slot[c][k]` with `f` applied to it. -/
def Chip.modifySlot (chip : Chip) (c : Chan) (k : SlotIx) (f : Slot → Slot) : Chip :=
  chip.modifyChannel c fun ch => ch.modifySlot k f

/-- `ch[c]` of a state. -/
def State.channel (s : State) (c : Chan) : Channel := s.chip.ch.get c

/-- `slot[c][k]` of a state. -/
def State.slot (s : State) (c : Chan) (k : SlotIx) : Slot := (s.channel c).slot.get k

/-- The state with another block state; requests and handed-back samples stay. -/
def State.withChip (s : State) (chip : Chip) : State := { s with chip := chip }

/-! ## Outcomes -/

/-- Every operation but `RESET` faults until a `RESET` has been performed (70_reset R240). -/
def whenLive (s : State) (r : Result) : Result := if s.live then r else .fault .beforeReset

/-- A write that changes the block state by `f` and nothing else; no write fails (44 R153). -/
def writeChip (s : State) (f : Chip → Chip) : Result := whenLive s (.next (s.withChip (f s.chip)))

/-- A write that changes channel `c` by `f` and nothing else. -/
def writeChannel (s : State) (c : Chan) (f : Channel → Channel) : Result :=
  writeChip s fun chip => chip.modifyChannel c f

/-- A write that changes slot `(c, k)` by `f` and nothing else. -/
def writeSlot (s : State) (c : Chan) (k : SlotIx) (f : Slot → Slot) : Result :=
  writeChip s fun chip => chip.modifySlot c k f

/-- The answer of an operation that hands back a sample pair, or is refused by the model (45 R191, 46 R202): the
pair is appended to what the outside has received (70_reset R252). -/
def answer (s : State) : Except Refusal (Chip × Pair) → Result
  | .error r => .refused r
  | .ok (chip, y) => .next { s with chip := chip, outputs := s.outputs ++ [y] }

/-! ## Requests -/

/-- The operation that the oldest request stands for, if one is presented (60_exceptions R226). -/
def State.fetch (s : State) : Option Instr := s.inputs.head?.map decodeRequest

/-- The oldest request is taken when its operation has completed. -/
def State.dropInput (s : State) : State := { s with inputs := s.inputs.tail }

/-- Completion of a step: a next state has its oldest request taken; a stop stays a stop. -/
def retire : Result → Result
  | .next t => .next t.dropInput
  | .fault r => .fault r
  | .refused r => .refused r

/-- A request placed before all others. A register-write word is never carried on the bus (30_encoding R62): it is
what a data write forms from its own word and the address latch of its part, so placing one sets that latch and
presents the data write (log entry 9). -/
def State.place (s : State) : Encoded → State
  | .request r => { s with inputs := r :: s.inputs }
  | .regWord w =>
    { s with
      chip := { s.chip with addrLatch := s.chip.addrLatch.set (regWordPart w) (regWordReg w) }
      inputs := .bus (mkBusWord (regWordPart w) 0#1 (regWordValue w)) :: s.inputs }

end Sys2Proof.Machine
end

