-- ==== Sys2Proof/Machine/Registers.lean ====
section
/-!
DEFINITION. The register interface (44_register_interface): the meaning of every bus write and of every
register-write instruction. The two that read the configuration take it; the machine's are at its own. A field of the data byte `v[hi:lo]` is `v.extractLsb' lo (hi - lo + 1)`.
-/

namespace Sys2Proof.Machine

/-- `WR_IGNORED` (44 R154): no state changes. -/
def execWrIgnored (_part : Part) (_reg _value : Byte) (s : State) : Result := writeChip s fun chip => chip

/-! ## Global registers -/

/-- `WR_LFO` (44 R155). -/
def execWrLfo (v : Byte) (s : State) : Result :=
  writeChip s fun chip => { chip with lfoEnable := v.getLsbD 3, lfoFreq := v.extractLsb' 0 3 }

/-- The event a key write delivers to operator `op` of channel `c`: key-on if its mask bit is 1, else key-off
(44 R156). -/
def keyEvent (g : Cfg) (c : Chan) (v : Byte) (chip : Chip) (op : Op) : Chip :=
  chip.modifySlot c (slotOfOp op) fun sl => if keyBit v op then keyOn g sl else keyOff sl

/-- The four events of a key write (44 R156). -/
def keyEvents (g : Cfg) (c : Chan) (v : Byte) (chip : Chip) : Chip :=
  [Op.op1, Op.op2, Op.op3, Op.op4].foldl (keyEvent g c v) chip

/-- `WR_KEY` (44 R156): channel indices 3 and 7 change nothing. -/
def performKey (g : Cfg) (v : Byte) (s : State) : Result :=
  writeChip s fun chip =>
    match keyChannel (v.extractLsb' 0 3) with
    | none => chip
    | some c => keyEvents g c v chip

/-- `WR_KEY` of the machine. -/
def execWrKey (v : Byte) (s : State) : Result := performKey cfg v s

/-! ## Operator registers -/

/-- `WR_DTMUL` (44 R157). -/
def execWrDtmul (part : Part) (slot : SlotIx) (n : PartChan) (v : Byte) (s : State) : Result :=
  writeSlot s (chanOf part n) slot fun sl => { sl with dt := v.extractLsb' 4 3, mul := v.extractLsb' 0 4 }

/-- `WR_TL` (44 R158). -/
def execWrTl (part : Part) (slot : SlotIx) (n : PartChan) (v : Byte) (s : State) : Result :=
  writeSlot s (chanOf part n) slot fun sl => { sl with tl := v.extractLsb' 0 7 }

/-- `WR_KSAR` (44 R159). -/
def execWrKsar (part : Part) (slot : SlotIx) (n : PartChan) (v : Byte) (s : State) : Result :=
  writeSlot s (chanOf part n) slot fun sl => { sl with ks := v.extractLsb' 6 2, ar := v.extractLsb' 0 5 }

/-- `WR_AMDR` (44 R160). -/
def execWrAmdr (part : Part) (slot : SlotIx) (n : PartChan) (v : Byte) (s : State) : Result :=
  writeSlot s (chanOf part n) slot fun sl => { sl with am := v.getLsbD 7, dr := v.extractLsb' 0 5 }

/-- `WR_SR` (44 R161). -/
def execWrSr (part : Part) (slot : SlotIx) (n : PartChan) (v : Byte) (s : State) : Result :=
  writeSlot s (chanOf part n) slot fun sl => { sl with sr := v.extractLsb' 0 5 }

/-- `WR_SLRR` (44 R162). -/
def execWrSlrr (part : Part) (slot : SlotIx) (n : PartChan) (v : Byte) (s : State) : Result :=
  writeSlot s (chanOf part n) slot fun sl => { sl with sl := v.extractLsb' 4 4, rr := v.extractLsb' 0 4 }

/-- `WR_SSGEG` (44 R163). -/
def execWrSsgeg (part : Part) (slot : SlotIx) (n : PartChan) (v : Byte) (s : State) : Result :=
  writeSlot s (chanOf part n) slot fun sl => { sl with ssgEn := v.getLsbD 3, ssgMode := v.extractLsb' 0 3 }

/-! ## Channel registers -/

/-- `WR_FNHI` (44 R164): the one latch of the core; part and channel select nothing. -/
def execWrFnhi (_part : Part) (_n : PartChan) (v : Byte) (s : State) : Result :=
  writeChip s fun chip => { chip with fnumLatch := v.extractLsb' 0 6 }

/-- `WR_FNLO` (44 R165): applies the latch and the low byte together; the latch keeps its value. -/
def execWrFnlo (part : Part) (n : PartChan) (v : Byte) (s : State) : Result :=
  writeChannel s (chanOf part n) fun ch =>
    { ch with block := s.chip.fnumLatch.extractLsb' 3 3, fnum := s.chip.fnumLatch.extractLsb' 0 3 ++ v }

/-- `WR_FBALG` (44 R166). -/
def execWrFbalg (part : Part) (n : PartChan) (v : Byte) (s : State) : Result :=
  writeChannel s (chanOf part n) fun ch => { ch with fb := v.extractLsb' 3 3, alg := v.extractLsb' 0 3 }

/-- `WR_PANSENS` (44 R167). -/
def execWrPansens (part : Part) (n : PartChan) (v : Byte) (s : State) : Result :=
  writeChannel s (chanOf part n) fun ch =>
    { ch with panL := v.getLsbD 7, panR := v.getLsbD 6, ams := v.extractLsb' 4 2, fms := v.extractLsb' 0 3 }

/-! ## The bus -/

/-- `AW` (44 R150): latches a register number. -/
def execAw (part : Part) (value : Byte) (s : State) : Result :=
  writeChip s fun chip => { chip with addrLatch := chip.addrLatch.set part value }

/-- `RegWrite(p, reg, v)` (44 R152): the register-write word is decoded and the instruction selected is performed.
The six operations that are not register writes are never selected (`decodeRegWord_isRegWrite` in Laws). -/
def regWrite (g : Cfg) (part : Part) (reg value : Byte) (s : State) : Result :=
  match decodeRegWord (mkRegWord part reg value) with
  | .wrLfo v => execWrLfo v s
  | .wrKey v => performKey g v s
  | .wrDtmul p k n v => execWrDtmul p k n v s
  | .wrTl p k n v => execWrTl p k n v s
  | .wrKsar p k n v => execWrKsar p k n v s
  | .wrAmdr p k n v => execWrAmdr p k n v s
  | .wrSr p k n v => execWrSr p k n v s
  | .wrSlrr p k n v => execWrSlrr p k n v s
  | .wrSsgeg p k n v => execWrSsgeg p k n v s
  | .wrFnlo p n v => execWrFnlo p n v s
  | .wrFnhi p n v => execWrFnhi p n v s
  | .wrFbalg p n v => execWrFbalg p n v s
  | .wrPansens p n v => execWrPansens p n v s
  | .wrIgnored p r v => execWrIgnored p r v s
  | .aw _ _ | .dw _ _ | .tick | .hout _ | .reset | .kill => execWrIgnored part reg value s

/-- `DW` (44 R151): a register write at the address latched for the part, which keeps its value. -/
def performDw (g : Cfg) (part : Part) (value : Byte) (s : State) : Result :=
  whenLive s (regWrite g part (s.chip.addrLatch.get part) value s)

/-- `DW` of the machine. -/
def execDw (part : Part) (value : Byte) (s : State) : Result := performDw cfg part value s

end Sys2Proof.Machine
end

