-- ==== Sys2Proof/Machine/Arith.lean ====
section
/-!
DEFINITION. The integer arithmetic primitives of 00_scope rule R6. The block has no flags or condition codes
(10_state R23), so there is no flag computation beside them.
-/

namespace Sys2Proof.Machine

/-- Division truncated toward zero (00_scope R6); no rule divides by 0. -/
def tdiv (a b : Int) : Int := Int.tdiv a b

/-- `clamp(v, lo, hi) = min(hi, max(lo, v))` (00_scope R6). -/
def clamp (v lo hi : Int) : Int := min hi (max lo v)

/-- `sat16(v)`: saturation to the signed 16-bit range (00_scope R6). -/
def sat16 (v : Int) : Int := clamp v (-32768) 32767

/-- `wrap32(v) = v mod 2^32` as a 32-bit value (00_scope R6). -/
def wrap32 (v : Int) : BitVec 32 := BitVec.ofInt 32 v

/-- The 16-bit two's-complement word of an integer in the signed 16-bit range. -/
def toSample (v : Int) : Sample := BitVec.ofInt 16 v

end Sys2Proof.Machine
end

