-- ==== Sys2Proof/Machine/Frequency.lean ====
section
/-!
DEFINITION. The frequency unit (43_frequency): key code, detune, multiple and phase increment, pure functions of the
parameter registers.
-/

namespace Sys2Proof.Machine

/-- `KC`: the key code of a channel, `block * 4 + KC_NOTE[fnum[10:7]]`, the block above the two note bits (43 R136). -/
def keyCode (g : Cfg) (ch : Channel) : BitVec 5 := ch.block ++ g.kcNote (ch.fnum.extractLsb' 7 4)

/-- `DTAMOUNT`: the detune amount that `dt[1:0]` selects (43 R138). -/
def detuneAmount (g : Cfg) (kc : BitVec 5) (sl : Slot) : Nat := g.dtTab (sl.dt.extractLsb' 0 2) kc

/-- `DTSIGN`: `dt[2]` set subtracts (43 R138). -/
def detuneSign (sl : Slot) : Int := if sl.dt.getLsbD 2 then -1 else 1

/-- The detuned frequency `fc`, wrapped to 18 bits (43 R141). -/
def detunedFreq (g : Cfg) (ch : Channel) (sl : Slot) : Nat :=
  let base : Int := (ch.fnum.toNat <<< ch.block.toNat : Nat)
  ((base + detuneSign sl * 2 * detuneAmount g (keyCode g ch) sl) % 2 ^ 18).toNat

/-- `PHASEINC`: the phase increment per tick, in units of 2^-32 cycle (43 R141). -/
def phaseInc (g : Cfg) (ch : Channel) (sl : Slot) : BitVec 32 :=
  BitVec.ofNat 32 ((detunedFreq g ch sl * mulHalf sl.mul) <<< 10)

end Sys2Proof.Machine
end

