-- ==== Sys2Proof/Machine/Operator.lean ====
section
/-!
DEFINITION. One operator for one tick (41_operator): total attenuation, modulated phase, output, phase advance.
-/

namespace Sys2Proof.Machine

/-- `TOTALATT`: envelope attenuation plus total level, clamped to `ENV_MAX` (41 R111). -/
def totalAtt (g : Cfg) (sl : Slot) : Nat := min g.envMax (attenuation sl + sl.tl.toNat * g.tlStep)

/-- The phase with the modulation input added, `MOD_GAIN` phase units per unit, mod 2^32 (41 R112, R115). -/
def modulatedPhase (g : Cfg) (sl : Slot) (mod : Int) : BitVec 32 := wrap32 (sl.phase.toNat + mod * g.modGain)

/-- The output of a slot for modulation input `mod`, from the phase before its advance (41 R112, R113). -/
def opOutput (g : Cfg) (sl : Slot) (mod : Int) : Int := g.opWave (modulatedPhase g sl mod) (totalAtt g sl)

/-- The phase advance of one tick, wrapping mod 2^32 (41 R114). -/
def advancePhase (g : Cfg) (ch : Channel) (sl : Slot) : Slot := { sl with phase := sl.phase + phaseInc g ch sl }

/-- `OPGEN(c, k, mod)`: the slot's output and the channel with the slot's phase advanced (41 R112). DEDUCED (log
entry 18): the output is taken from the phase before the advance, as R112 says, so a write to `dt` or `mul` moves the
next tick's phase and is heard one tick later. The clause of 20_memory R53 that such a write changes the next tick's
output contradicts R112 and is not followed: R112 goes first by inference from the order of authority that opens
90_conflicts. -/
def opGen (g : Cfg) (ch : Channel) (k : SlotIx) (mod : Int) : Channel × Int :=
  (ch.modifySlot k (advancePhase g ch), opOutput g (ch.slot.get k) mod)

end Sys2Proof.Machine
end

