-- ==== Sys2Proof/Machine/Algorithm.lean ====
section
/-!
DEFINITION. Operator-1 feedback and the eight algorithms (42_algorithm).
-/

namespace Sys2Proof.Machine

/-- `FBMOD`: the feedback term, 0 at feedback 0 whatever the history (42 R122). -/
def fbMod (g : Cfg) (ch : Channel) : Int :=
  if ch.fb = 0 then 0 else tdiv (ch.fbHist0.toInt + ch.fbHist1.toInt) (2 ^ g.fbShift ch.fb)

/-- History update with operator 1's output (42 R123). -/
def pushHistory (ch : Channel) (o1 : Int) : Channel :=
  { ch with fbHist0 := toSample o1, fbHist1 := ch.fbHist0 }

/-- `M2`: the modulation input of operator 2 (42 R125). -/
def mod2 (alg : BitVec 3) (o1 : Int) : Int :=
  match alg.toNat with
  | 0 => o1
  | 1 => 0
  | 2 => 0
  | 3 => o1
  | 4 => o1
  | 5 => o1
  | 6 => o1
  | _ => 0

/-- `M3`: the modulation input of operator 3 (42 R125). -/
def mod3 (alg : BitVec 3) (o1 o2 : Int) : Int :=
  match alg.toNat with
  | 0 => o2
  | 1 => o1 + o2
  | 2 => o2
  | 3 => 0
  | 4 => 0
  | 5 => o1
  | 6 => 0
  | _ => 0

/-- `M4`: the modulation input of operator 4 (42 R125). -/
def mod4 (alg : BitVec 3) (o1 o2 o3 : Int) : Int :=
  match alg.toNat with
  | 0 => o3
  | 1 => o3
  | 2 => o1 + o3
  | 3 => o2 + o3
  | 4 => o3
  | 5 => o1
  | 6 => 0
  | _ => 0

/-- `OUT`: the channel sample, the sum of the carriers, not clipped (42 R125). -/
def carrierSum (alg : BitVec 3) (o1 o2 o3 o4 : Int) : Int :=
  match alg.toNat with
  | 0 => o4
  | 1 => o4
  | 2 => o4
  | 3 => o4
  | 4 => o2 + o4
  | 5 => o2 + o3 + o4
  | 6 => o2 + o3 + o4
  | _ => o1 + o2 + o3 + o4

/-- `ROUTE`: the four operators of a channel in natural order, each modulation input formed from this tick's outputs,
and the channel sample (42 R121, R125). -/
def route (g : Cfg) (ch : Channel) : Channel × Int :=
  let r1 := opGen g ch (slotOfOp .op1) (fbMod g ch)
  let o1 := r1.2
  let r2 := opGen g (pushHistory r1.1 o1) (slotOfOp .op2) (mod2 ch.alg o1)
  let o2 := r2.2
  let r3 := opGen g r2.1 (slotOfOp .op3) (mod3 ch.alg o1 o2)
  let o3 := r3.2
  let r4 := opGen g r3.1 (slotOfOp .op4) (mod4 ch.alg o1 o2 o3)
  let o4 := r4.2
  (r4.1, carrierSum ch.alg o1 o2 o3 o4)

end Sys2Proof.Machine
end

