-- ==== Sys2Proof/Machine/Engine.lean ====
section
/-!
DEFINITION. The chip engine (45_chip_engine): admission, one tick of the six channels, the stereo mix, and `TICK`.
-/

namespace Sys2Proof.Machine

/-- Does some slot have its SSG-EG enable set? -/
def Chip.anySsg (chip : Chip) : Bool := chip.ch.any fun ch => ch.slot.any fun sl => sl.ssgEn

/-- Admission: the refusal, if any, of a tick (45 R191). -/
def admission (g : Cfg) (chip : Chip) : Option Refusal :=
  if chip.lfoEnable = true ∧ g.lfoPolicy = .refuse then some .lfoNotInSource
  else if chip.anySsg = true ∧ g.ssgPolicy = .refuse then some .ssgNotInSource
  else none

/-- The envelope step of a channel's four slots (45 R190). -/
def egTickChannel (g : Cfg) (ch : Channel) : Channel := { ch with slot := ch.slot.map (egTick g (keyCode g ch)) }

/-- One tick of one channel: four `EGTICK`, then `ROUTE` (45 R190). -/
def tickChannel (g : Cfg) (ch : Channel) : Channel × Int := route g (egTickChannel g ch)

/-- A side's sum divided by the channel count and saturated (45 R194). -/
def mixSide (sum : Int) : Sample := toSample (sat16 (tdiv sum numChannels))

/-- The stereo mix of the channels' samples through their enable bits (45 R193, R194). -/
def mix (r : Bank6 (Channel × Int)) : Pair where
  left := mixSide (r.sum fun x => if x.1.panL then x.2 else 0)
  right := mixSide (r.sum fun x => if x.1.panR then x.2 else 0)

/-- A tick of the block once admitted: every channel, whatever its envelopes (45 R190, R192). -/
def tickChip (g : Cfg) (chip : Chip) : Chip × Pair :=
  let r := chip.ch.map (tickChannel g)
  ({ chip with ch := r.map fun x => x.1 }, mix r)

/-- `TICK()`: admission, then the tick (45 R190). -/
def tick (g : Cfg) (chip : Chip) : Except Refusal (Chip × Pair) :=
  match admission g chip with
  | some r => .error r
  | none => .ok (tickChip g chip)

/-- `TICK` (45 R190). -/
def performTick (g : Cfg) (s : State) : Result := whenLive s (answer s (tick g s.chip))

/-- `TICK` of the machine. -/
def execTick (s : State) : Result := performTick cfg s

end Sys2Proof.Machine
end

