-- ==== Sys2Proof/Machine/Resampler.lean ====
section
/-!
DEFINITION. The linear-interpolation resampler (46_resampler) and `HOUT`.
-/

namespace Sys2Proof.Machine

/-- A position of at least 1.0 lowered by 1.0 (46 R202), computed in the integers. -/
def lowerPos (g : Cfg) (pos : Nat) : Nat := ((pos : Int) - g.one).toNat

/-- A native pair pulled into the resampler: the current pair becomes the previous one, and the position, which is at
least 1.0 then, falls by 1.0 (46 R202). -/
def Resampler.shift (g : Cfg) (rs : Resampler) (y : Pair) : Resampler where
  pos := lowerPos g rs.pos
  prev := rs.cur
  cur := y

/-- `n` rounds of the loop of `HOUT`, each pulling one tick (46 R202); a refused tick refuses the whole. -/
def pull (g : Cfg) : Nat → Chip → Except Refusal Chip
  | 0, chip => .ok chip
  | n + 1, chip =>
    match tick g chip with
    | .error r => .error r
    | .ok (chip', y) => pull g n { chip' with rs := chip'.rs.shift g y }

/-- The number of ticks an `HOUT` performs: its loop runs while the position is at least 1.0 (46 R202, R203). -/
def ticksDue (g : Cfg) (chip : Chip) : Nat := chip.rs.pos / g.one

/-- Linear interpolation of one side at fraction `f`, truncated toward zero on the difference (46 R202). -/
def interpolate (g : Cfg) (prev cur : Sample) (f : Nat) : Sample :=
  toSample (prev.toInt + tdiv ((cur.toInt - prev.toInt) * f) g.one)

/-- The host-rate pair at the resampler's position (46 R202). -/
def Resampler.output (g : Cfg) (rs : Resampler) : Pair where
  left := interpolate g rs.prev.left rs.cur.left rs.pos
  right := interpolate g rs.prev.right rs.cur.right rs.pos

/-- The position advanced by the ratio (46 R202). -/
def Resampler.advance (rs : Resampler) (ratio : Nat) : Resampler := { rs with pos := rs.pos + ratio }

/-- `HOUT(ratio)` on the block, for a ratio of any format (46 R201, R202). -/
def hout (g : Cfg) (ratio : Nat) (chip : Chip) : Except Refusal (Chip × Pair) :=
  match pull g (ticksDue g chip) chip with
  | .error r => .error r
  | .ok chip' => .ok ({ chip' with rs := chip'.rs.advance ratio }, chip'.rs.output g)

/-- `HOUT` (46 R202). -/
def performHout (g : Cfg) (ratio : Ratio) (s : State) : Result := whenLive s (answer s (hout g ratio.toNat s.chip))

/-- `HOUT` of the machine. -/
def execHout (ratio : Ratio) (s : State) : Result := performHout cfg ratio s

end Sys2Proof.Machine
end

