-- ==== Sys2Proof/Machine/System.lean ====
section
/-!
DEFINITION. The system operations `RESET` and `KILL` (47_system_ops), under any configuration and under the machine's.
-/

namespace Sys2Proof.Machine

/-- `RESET` (47 R210): every piece of state of the block to its reset value, from any state, the power-up state
included (70_reset R240). What was presented and handed back outside the block is not the block's to reset. -/
def performReset (g : Cfg) (s : State) : Result := .next { s with chip := resetChip g, live := true }

/-- `RESET` of the machine. -/
def execReset (s : State) : Result := performReset cfg s

/-- A slot silenced at once: Off at `ENV_TOP`, everything else kept (47 R212). -/
def silence (g : Cfg) (sl : Slot) : Slot := { sl with egState := .off, envAcc := g.envTop }

/-- `KILL` (47 R212): every slot silenced. -/
def performKill (g : Cfg) (s : State) : Result :=
  writeChip s fun chip => { chip with ch := chip.ch.map fun ch => { ch with slot := ch.slot.map (silence g) } }

/-- `KILL` of the machine. -/
def execKill (s : State) : Result := performKill cfg s

end Sys2Proof.Machine
end

