-- ==== Sys2Proof/Machine/Perform.lean ====
section
/-!
DEFINITION. The operations and the step as functions of the configuration record (00_scope R4, 10_state R22). The
machine's `exec` and `step` are these at its own configuration (`exec_eq_perform`, `step_eq_stepWith` in Laws).
-/

namespace Sys2Proof.Machine

/-- An operation under configuration `g`. -/
def perform (g : Cfg) (i : Instr) (s : State) : Result :=
  match i with
  | .aw part value => execAw part value s
  | .dw part value => performDw g part value s
  | .wrLfo value => execWrLfo value s
  | .wrKey value => performKey g value s
  | .wrDtmul part slot n value => execWrDtmul part slot n value s
  | .wrTl part slot n value => execWrTl part slot n value s
  | .wrKsar part slot n value => execWrKsar part slot n value s
  | .wrAmdr part slot n value => execWrAmdr part slot n value s
  | .wrSr part slot n value => execWrSr part slot n value s
  | .wrSlrr part slot n value => execWrSlrr part slot n value s
  | .wrSsgeg part slot n value => execWrSsgeg part slot n value s
  | .wrFnlo part n value => execWrFnlo part n value s
  | .wrFnhi part n value => execWrFnhi part n value s
  | .wrFbalg part n value => execWrFbalg part n value s
  | .wrPansens part n value => execWrPansens part n value s
  | .wrIgnored part reg value => execWrIgnored part reg value s
  | .tick => performTick g s
  | .hout ratio => performHout g ratio s
  | .reset => performReset g s
  | .kill => performKill g s

/-- One step under configuration `g`. -/
def stepWith (g : Cfg) (s : State) : Result :=
  match s.fetch with
  | none => .next s
  | some i => retire (perform g i s)

end Sys2Proof.Machine
end

