-- ==== Sys2Proof/Machine/Dispatch.lean ====
section
/-! DEFINITION. The dispatch of an instruction to its meaning: one arm per constructor of Instr. -/

namespace Sys2Proof.Machine

def exec (i : Instr) (s : State) : Host.Outcome State Fault Refusal :=
  match i with
  | .aw part value => Sys2Proof.Machine.execAw part value s
  | .dw part value => Sys2Proof.Machine.execDw part value s
  | .wrLfo value => Sys2Proof.Machine.execWrLfo value s
  | .wrKey value => Sys2Proof.Machine.execWrKey value s
  | .wrDtmul part slot n value => Sys2Proof.Machine.execWrDtmul part slot n value s
  | .wrTl part slot n value => Sys2Proof.Machine.execWrTl part slot n value s
  | .wrKsar part slot n value => Sys2Proof.Machine.execWrKsar part slot n value s
  | .wrAmdr part slot n value => Sys2Proof.Machine.execWrAmdr part slot n value s
  | .wrSr part slot n value => Sys2Proof.Machine.execWrSr part slot n value s
  | .wrSlrr part slot n value => Sys2Proof.Machine.execWrSlrr part slot n value s
  | .wrSsgeg part slot n value => Sys2Proof.Machine.execWrSsgeg part slot n value s
  | .wrFnlo part n value => Sys2Proof.Machine.execWrFnlo part n value s
  | .wrFnhi part n value => Sys2Proof.Machine.execWrFnhi part n value s
  | .wrFbalg part n value => Sys2Proof.Machine.execWrFbalg part n value s
  | .wrPansens part n value => Sys2Proof.Machine.execWrPansens part n value s
  | .wrIgnored part reg value => Sys2Proof.Machine.execWrIgnored part reg value s
  | .tick => Sys2Proof.Machine.execTick s
  | .hout ratio => Sys2Proof.Machine.execHout ratio s
  | .reset => Sys2Proof.Machine.execReset s
  | .kill => Sys2Proof.Machine.execKill s

end Sys2Proof.Machine
end

