-- ==== Sys2Proof/Machine/Step.lean ====
section
/-!
DEFINITION. One step of the machine: the oldest request presented is decoded, performed and taken (60_exceptions
R226). With no request presented the block initiates nothing and stays as it is (R226, 70_reset R252; log entry 2).
-/

namespace Sys2Proof.Machine

/-- One step. -/
def step (s : State) : Host.Outcome State Fault Refusal :=
  match s.fetch with
  | none => .next s
  | some i => retire (exec i s)

/-- `s` with the instruction of an opcode-table word placed where `step` takes its next operation (log entry 9);
`s` itself where the bits are no word. -/
def State.withFetchWord (s : State) (nbits w : Nat) : State :=
  match tableWord nbits w with
  | none => s
  | some e => s.place e

end Sys2Proof.Machine
end

