-- ==== Sys2Proof/Safety.lean ====
section
/-!
DEFINITION. What counts as a safe state and a safe run, in the terms claims use: the invariants the spec states
(10_state R16 to R18, R20; 40 R102; 46 R204), admission of a tick (45 R191), the parts of the state that a claim says
are unchanged, and the exact operator function of 41 R113 as a predicate.
-/

namespace Sys2Proof.Machine

/-! ## Invariants -/

/-- `0 <= envAcc <= ENV_TOP`, and `egState = Off` implies `envAcc = ENV_TOP` (10_state R16, R17; 40 R102). -/
def Slot.Inv (sl : Slot) : Prop := sl.envAcc ≤ cfg.envTop ∧ (sl.egState = .off → sl.envAcc = cfg.envTop)

/-- A sample within `[-b, b]`. -/
def Sample.within (b : Int) (x : Sample) : Prop := -b ≤ x.toInt ∧ x.toInt ≤ b

/-- The slots keep their invariant and the feedback history holds values in `[-PEAK, PEAK]` (10_state R18). -/
def Channel.Inv (ch : Channel) : Prop :=
  (∀ k, (ch.slot.get k).Inv) ∧ Sample.within cfg.peak ch.fbHist0 ∧ Sample.within cfg.peak ch.fbHist1

/-- The held native pairs lie in the range of a tick's result (45 R194), and the position, which is below `ONE` plus
the last ratio between operations (46 R204), is below `ONE` plus the end of the ratios: it fits `RS_INT + 1` integer
bits. -/
def Resampler.Inv (rs : Resampler) : Prop :=
  rs.pos < cfg.one + cfg.ratioEnd ∧
  Sample.within 32764 rs.prev.left ∧ Sample.within 32764 rs.prev.right ∧
  Sample.within 32764 rs.cur.left ∧ Sample.within 32764 rs.cur.right

/-- The invariant of the block. -/
def Chip.Inv (chip : Chip) : Prop := (∀ c, (chip.ch.get c).Inv) ∧ chip.rs.Inv

/-- The invariant of the state: once a `RESET` has been performed, the block keeps its invariant. -/
def State.Inv (s : State) : Prop := s.live = true → s.chip.Inv

/-! ## Admission -/

/-- A tick is admitted whatever the policies: neither the LFO nor an SSG-EG is enabled (45 R191). -/
def Chip.Admitted (chip : Chip) : Prop := chip.lfoEnable = false ∧ ∀ c k, ((chip.ch.get c).slot.get k).ssgEn = false

/-- A state in which every operation completes: a `RESET` has been performed and ticks are admitted. -/
def State.Ready (s : State) : Prop := s.live = true ∧ s.chip.Admitted

/-! ## What is unchanged -/

/-- The channel's own registers, its slots apart, agree (10_state R12, R18). -/
def Channel.SameRegs (a b : Channel) : Prop :=
  a.alg = b.alg ∧ a.fb = b.fb ∧ a.block = b.block ∧ a.fnum = b.fnum ∧ a.panL = b.panL ∧ a.panR = b.panR ∧
  a.ams = b.ams ∧ a.fms = b.fms ∧ a.fbHist0 = b.fbHist0 ∧ a.fbHist1 = b.fbHist1

/-- Everything outside the six channels agrees: latches, LFO register, resampler, and what lies outside the block. -/
def State.SameOutside (t s : State) : Prop :=
  t.chip.addrLatch = s.chip.addrLatch ∧ t.chip.fnumLatch = s.chip.fnumLatch ∧
  t.chip.lfoEnable = s.chip.lfoEnable ∧ t.chip.lfoFreq = s.chip.lfoFreq ∧ t.chip.rs = s.chip.rs ∧
  t.live = s.live ∧ t.inputs = s.inputs ∧ t.outputs = s.outputs

/-- `t` is `s` but for slot `(c, k)`, which is now `sl`. -/
def State.SlotWritten (t s : State) (c : Chan) (k : SlotIx) (sl : Slot) : Prop :=
  t.slot c k = sl ∧ (∀ c' k', ¬(c' = c ∧ k' = k) → t.slot c' k' = s.slot c' k') ∧
  (∀ c', (t.channel c').SameRegs (s.channel c')) ∧ t.SameOutside s

/-- `t` is `s` but for channel `c`, which is now `ch`. -/
def State.ChannelWritten (t s : State) (c : Chan) (ch : Channel) : Prop :=
  t.channel c = ch ∧ (∀ c', c' ≠ c → t.channel c' = s.channel c') ∧ t.SameOutside s

/-- The parameter registers of two slots agree (10_state R11). -/
def Slot.SameParams (a b : Slot) : Prop :=
  a.dt = b.dt ∧ a.mul = b.mul ∧ a.tl = b.tl ∧ a.ks = b.ks ∧ a.ar = b.ar ∧ a.am = b.am ∧ a.dr = b.dr ∧
  a.sr = b.sr ∧ a.sl = b.sl ∧ a.rr = b.rr ∧ a.ssgEn = b.ssgEn ∧ a.ssgMode = b.ssgMode

/-- The parameter registers of two channels agree (10_state R12). -/
def Channel.SameParams (a b : Channel) : Prop :=
  (∀ k, (a.slot.get k).SameParams (b.slot.get k)) ∧
  a.alg = b.alg ∧ a.fb = b.fb ∧ a.block = b.block ∧ a.fnum = b.fnum ∧ a.panL = b.panL ∧ a.panR = b.panR ∧
  a.ams = b.ams ∧ a.fms = b.fms

/-- Every parameter register of the block agrees (10_state R11 to R13), and the F-number latch. -/
def Chip.SameParams (a b : Chip) : Prop :=
  (∀ c, (a.ch.get c).SameParams (b.ch.get c)) ∧ a.lfoEnable = b.lfoEnable ∧ a.lfoFreq = b.lfoFreq ∧
  a.fnumLatch = b.fnumLatch

/-! ## What is never read -/

/-- A slot with its registers that nothing reads cleared: `am`, `ssgMode` (10_state R11). -/
def Slot.visible (sl : Slot) : Slot := { sl with am := false, ssgMode := 0 }

/-- A channel with the registers that nothing reads cleared: `ams`, `fms`, and those of its slots (10_state R12). -/
def Channel.visible (ch : Channel) : Channel := { ch with slot := ch.slot.map Slot.visible, ams := 0, fms := 0 }

/-- The block with the registers that nothing reads cleared (10_state R11 to R13; 93 U1, U2). -/
def Chip.visible (chip : Chip) : Chip := { chip with ch := chip.ch.map Channel.visible, lfoFreq := 0 }

/-! ## The two enables that the source gives no semantics -/

/-- A slot with its SSG-EG enable cleared. -/
def Slot.withoutEnables (sl : Slot) : Slot := { sl with ssgEn := false }

/-- A channel with the SSG-EG enables of its slots cleared. -/
def Channel.withoutEnables (ch : Channel) : Channel := { ch with slot := ch.slot.map Slot.withoutEnables }

/-- The block with the LFO enable and every SSG-EG enable cleared (10_state R11, R13; 45 R191). -/
def Chip.withoutEnables (chip : Chip) : Chip :=
  { chip with ch := chip.ch.map Channel.withoutEnables, lfoEnable := false }

/-! ## Power-up -/

/-- The power-up state around arbitrary contents: no `RESET` performed yet (70_reset R240). -/
def State.powerUp (chip : Chip) : State := { State.reset with chip := chip, live := false }

/-! ## The exact operator function -/

/-- `n` is the real number `x` truncated toward zero (00_scope R6). -/
def IsTrunc (x : ℝ) (n : Int) : Prop := (0 ≤ x → n = ⌊x⌋) ∧ (x < 0 → n = ⌈x⌉)

/-- `f` is the operator function of 41 R113 over the exact reals:
`trunc(sin(2*pi*theta/2^32) * 10^(-a/1280) * PEAK)`, and 0 above the quiet threshold. -/
def IsExactOpWave (f : BitVec 32 → Nat → Int) (peak quiet : Nat) : Prop :=
  ∀ theta a,
    (quiet < a → f theta a = 0) ∧
    (a ≤ quiet →
      IsTrunc (Real.sin (2 * Real.pi * theta.toNat / 2 ^ 32) * (10 : ℝ) ^ (-(a : ℝ) / 1280) * peak) (f theta a))

end Sys2Proof.Machine
end

