-- ==== Sys2Proof/Certificates/Slice0/Obligations.lean ====
section
/-!
DEFINITION. The statements for the provers, each from the numbered rules of spec/. A value that the spec marks as its
own decision (a "D" number of 92_eei_decisions) is named as such in the docstring. The free operator function
(log entry 6) is never given a value: a statement about it holds for every value of the free magnitude.
-/

open Sys2Proof Sys2Proof.Machine
open Host.Outcome (next fault refused)

/-! ## Encoding -/

/-- 30_encoding R61 to R64: decoding the word of a well-formed instruction gives the instruction back, with every
operand at every value the encoding admits (words and numbers: the spec's decisions D22, D23, D37). -/
def Obligations.DecodeOfEncodedInstruction : Prop :=
  ∀ i : Instr, i.wf = true → decode (encode i) = i

/-- 30_encoding R64, R66: every word of every format decodes to a well-formed instruction, whose word it is; no bit of
a word is dropped and no two words mean the same. -/
def Obligations.EncodeOfDecodedWord : Prop :=
  ∀ e : Encoded, (decode e).wf = true ∧ encode (decode e) = e

/-- Words written out in spec/95 (section V6.1, Programs 1, 2, 4 and 5) decode as printed there. -/
def Obligations.PrintedWordsDecode : Prop :=
  decode (.request (.bus 0x1B0#10)) = .aw .part0 0xB0 ∧
  decode (.request (.bus 0x007#10)) = .dw .part0 0x07 ∧
  decode (.request (.bus 0x344#10)) = .aw .part1 0x44 ∧
  decode (.request (.bus 0x222#10)) = .dw .part1 0x22 ∧
  decode (.regWord 0x022FF#17) = .wrLfo 0xFF ∧
  decode (.regWord 0x1220F#17) = .wrIgnored .part1 0x22 0x0F ∧
  decode (.regWord 0x02810#17) = .wrKey 0x10 ∧
  decode (.regWord 0x0337F#17) = .wrIgnored .part0 0x33 0x7F ∧
  decode (.regWord 0x0487F#17) = .wrTl .part0 2 0 0x7F ∧
  decode (.regWord 0x159FF#17) = .wrKsar .part1 2 1 0xFF ∧
  decode (.regWord 0x16EFF#17) = .wrAmdr .part1 3 2 0xFF ∧
  decode (.regWord 0x198FD#17) = .wrSsgeg .part1 2 0 0xFD ∧
  decode (.regWord 0x0A6FF#17) = .wrFnhi .part0 2 0xFF ∧
  decode (.regWord 0x1A100#17) = .wrFnlo .part1 1 0x00 ∧
  decode (.regWord 0x1B6FF#17) = .wrPansens .part1 2 0xFF ∧
  decode (.regWord 0x0B8FF#17) = .wrIgnored .part0 0xB8 0xFF

/-- 20_memory R48 against 30_encoding R64: the decoder ignores exactly the addresses that the address map leaves
unmapped (the addresses are the spec's decisions D22, D23, D39). -/
def Obligations.DecoderIgnoresExactlyUnmapped : Prop :=
  ∀ (p : Part) (reg v : Byte),
    decodeRegWord (mkRegWord p reg v) = .wrIgnored p reg v ↔ isMapped p reg = false

/-! ## Steps and outcomes -/

/-- 60_exceptions R226: a step performs the operation of the oldest request, and takes that request, no other, when it
has completed; a stop is the operation's stop. -/
def Obligations.StepPerformsOldestRequest : Prop :=
  ∀ (s : State) (r : Request) (rest : List Request), s.inputs = r :: rest →
    (∀ t, exec (decodeRequest r) s = next t → step s = next { t with inputs := rest }) ∧
    (∀ f, exec (decodeRequest r) s = fault f → step s = fault f) ∧
    (∀ f, exec (decodeRequest r) s = refused f → step s = refused f)

/-- The block initiates nothing (60_exceptions R226): with no request presented a step changes nothing. That such a
step answers the same state is the model's choice (log entry 2). -/
def Obligations.StepWithoutRequestIdles : Prop :=
  ∀ s : State, s.inputs = [] → step s = next s

/-- 70_reset R240, 93 U6: until a `RESET` has been performed every other operation is a model fault, and no
operation is one afterwards (60_exceptions R222). -/
def Obligations.FaultExactlyBeforeReset : Prop :=
  ∀ (i : Instr) (s : State), (∃ f, exec i s = fault f) ↔ (s.live = false ∧ i ≠ .reset)

/-- 60_exceptions R222, 45 R191: once a `RESET` has been performed every operation answers a next state, but for a
`TICK` or `HOUT` while the LFO or an SSG-EG enable is set, which the model refuses by name. -/
def Obligations.OnlyTicksAreRefused : Prop :=
  ∀ (i : Instr) (s : State), s.live = true →
    (∃ t, exec i s = next t) ∨
    ((i = .tick ∨ ∃ ratio, i = .hout ratio) ∧
      ((s.chip.lfoEnable = true ∧ exec i s = refused .lfoNotInSource) ∨
        ((∃ c k, (s.slot c k).ssgEn = true) ∧ exec i s = refused .ssgNotInSource)))

/-- 70_reset R252: what has been handed back is never changed; `TICK` and `HOUT` hand back one pair each, every other
operation none. -/
def Obligations.OneSamplePairPerTickOrHout : Prop :=
  ∀ (i : Instr) (s t : State), exec i s = next t →
    ((i = .tick ∨ ∃ ratio, i = .hout ratio) → ∃ y, t.outputs = s.outputs ++ [y]) ∧
    (¬(i = .tick ∨ ∃ ratio, i = .hout ratio) → t.outputs = s.outputs)

/-! ## Invariants -/

/-- 10_state R16 to R18, R20, 40 R102, 45 R194, 46 R204: every step keeps the invariant of the state: the envelope
accumulators in range and at the top when Off, the feedback history within the peak, the held pairs within the mix's
range, the resampler's position below its bound. -/
def Obligations.StepKeepsInvariant : Prop :=
  ∀ s t : State, s.Inv → step s = next t → t.Inv

/-- The invariant holds right after reset, where every envelope is Off at `ENV_TOP` (10_state R24, the spec's decision
D34), and around any unspecified power-up contents (70_reset R240). -/
def Obligations.ResetMeetsInvariant : Prop :=
  State.reset.Inv ∧ (∀ c k, (State.reset.slot c k).egState = .off ∧ (State.reset.slot c k).envAcc = 0x18000000) ∧
  ∀ chip : Chip, (State.powerUp chip).Inv

/-- 40 R82, the complete transition relation of the envelope: an operation other than `HOUT`, whose ticks
`HoutPullsTick` takes apart, leaves a slot's envelope state as it was, or takes one of the listed transitions on the
listed cause. A tick's causes are conditions on the accumulator after the step: attenuation 0, the sustain level
reached, silence reached. A key event is that of a key write, or of a data write that decodes into one, to the slot's
channel, by the mask bit of the slot's operator. At most one transition a tick, key-on of an un-keyed slot only, the
sustain levels and the key register are the spec's decisions D17, D18, D40, D5 (log entry 5) and D22; Release at
`ENV_TOP` with `rr = 0` going Off is the model's choice (log entry 17). -/
def Obligations.EnvelopeTransitionsAreTheTable : Prop :=
  ∀ (i : Instr) (s t : State), exec i s = next t → (∀ ratio, i ≠ .hout ratio) →
    ∀ c k,
      (t.slot c k).egState = (s.slot c k).egState ∨
      (i = .tick ∧ (s.slot c k).egState = .attack ∧ (t.slot c k).envAcc / 65536 = 0 ∧
        (t.slot c k).egState = .decay) ∨
      (i = .tick ∧ (s.slot c k).egState = .decay ∧
        (if (s.slot c k).sl.toNat = 15 then 5952 else 192 * (s.slot c k).sl.toNat) ≤ (t.slot c k).envAcc / 65536 ∧
        (t.slot c k).egState = .sustain) ∨
      (i = .tick ∧ (s.slot c k).egState = .release ∧ (t.slot c k).envAcc = cfg.envTop ∧
        (t.slot c k).egState = .off) ∨
      ((i = .kill ∨ i = .reset) ∧ (t.slot c k).egState = .off ∧ (t.slot c k).envAcc = cfg.envTop) ∨
      (∃ v : Byte,
        (i = .wrKey v ∨
          ∃ p, i = .dw p v ∧ decodeRegWord (mkRegWord p (s.chip.addrLatch.get p) v) = .wrKey v) ∧
        v.toNat % 4 ≠ 3 ∧ c.val = 3 * (v.toNat / 4 % 2) + v.toNat % 4 ∧
        ((keyBit v (opOfSlot k) = true ∧ ((s.slot c k).egState = .release ∨ (s.slot c k).egState = .off) ∧
            t.slot c k = { s.slot c k with egState := .attack, envAcc := cfg.envTop, phase := 0 }) ∨
          (keyBit v (opOfSlot k) = false ∧ (s.slot c k).egState.keyed = true ∧
            t.slot c k = { s.slot c k with egState := .release })))

/-- 40 R82, R92, R100, 44 R156, over whole steps, `HOUT` with all its ticks included: the only way a slot leaves Off is
a data write on part 0 while register number 0x28 is latched, whose channel index is the slot's channel and whose mask
bit of the slot's operator is 1 (the register number and its bits: the spec's decision D22). -/
def Obligations.OnlyKeyOnLeavesOff : Prop :=
  ∀ (s t : State) (c : Chan) (k : SlotIx), step s = next t →
    (s.slot c k).egState = .off → (t.slot c k).egState ≠ .off →
    ∃ (v : Byte) (rest : List Request), s.inputs = .bus (mkBusWord .part0 0#1 v) :: rest ∧
      s.chip.addrLatch.get .part0 = 0x28#8 ∧
      c.val = 3 * (v.toNat / 4 % 2) + v.toNat % 4 ∧ v.toNat % 4 ≠ 3 ∧
      keyBit v (opOfSlot k) = true

/-- 10_state section 2: every parameter register is written only by a register-write instruction (a data write on the
bus) and by `RESET`, and by nothing else; the address latches by an address write and `RESET` (R19). -/
def Obligations.ParametersChangeOnlyByDataWrites : Prop :=
  ∀ (s t : State) (r : Request) (rest : List Request), s.inputs = r :: rest → step s = next t → r ≠ .reset →
    ((∀ p v, decodeRequest r ≠ .dw p v) → t.chip.SameParams s.chip) ∧
    ((∀ p v, decodeRequest r ≠ .aw p v) → t.chip.addrLatch = s.chip.addrLatch)

/-- 10_state R11 to R13 ("read by: nothing"), 93 U1, U2: the fields `am`, `ssgMode`, `ams`, `fms` and `lfoFreq` can be
told apart by nothing. Two states that agree but for them take the same steps: both stop alike, or both go on to
states that again agree but for them, with the same samples handed back. -/
def Obligations.UnreadRegistersAreUnobservable : Prop :=
  ∀ s s' : State, s.chip.visible = s'.chip.visible → s.live = s'.live → s.inputs = s'.inputs →
    s.outputs = s'.outputs →
    (∀ t, step s = next t →
      ∃ t', step s' = next t' ∧ t.chip.visible = t'.chip.visible ∧ t.live = t'.live ∧ t.inputs = t'.inputs ∧
        t.outputs = t'.outputs) ∧
    (∀ f, step s = fault f → step s' = fault f) ∧
    (∀ f, step s = refused f → step s' = refused f)

/-! ## The bus -/

/-- 44 R150: an address write (bus bit 8 set) latches the register number of its part and changes nothing else (one
latch a part: the spec's decision D24). -/
def Obligations.AddressWriteLatches : Prop :=
  ∀ (p : Part) (v : Byte) (s : State), s.live = true →
    decode (.request (.bus (mkBusWord p 1#1 v))) = .aw p v ∧
    ∃ t, exec (.aw p v) s = next t ∧ t.chip.addrLatch.get p = v ∧
      (∀ q, q ≠ p → t.chip.addrLatch.get q = s.chip.addrLatch.get q) ∧
      t = { s with chip := { s.chip with addrLatch := t.chip.addrLatch } }

/-- 44 R151, R152: a data write (bus bit 8 clear) completes as the register write that its part, the latched register
number and its value decode into, and the latch keeps its value (the bus word and the latch are the spec's decisions
D37, D24). -/
def Obligations.DataWritePerformsDecodedWrite : Prop :=
  ∀ (p : Part) (v : Byte) (s : State), s.live = true →
    decode (.request (.bus (mkBusWord p 0#1 v))) = .dw p v ∧
    ∃ t, exec (.dw p v) s = next t ∧
      exec (decodeRegWord (mkRegWord p (s.chip.addrLatch.get p) v)) s = next t ∧
      t.chip.addrLatch = s.chip.addrLatch

/-- 20_memory R47: every bus write, repeated immediately with the same operands, leaves the same state as performing
it once; a key write too (the spec's own inference from R152 to R167). -/
def Obligations.BusWritesAreIdempotent : Prop :=
  ∀ (i : Instr) (s t : State), (∃ p v, i = .aw p v ∨ i = .dw p v) → exec i s = next t → exec i t = next t

/-- 44 R154: an ignored write changes nothing (which numbers are unmapped: the spec's decision D39). -/
def Obligations.IgnoredWriteChangesNothing : Prop :=
  ∀ (p : Part) (reg v : Byte) (s : State), s.live = true → exec (.wrIgnored p reg v) s = next s

/-! ## Global registers -/

/-- 44 R155: the LFO register; address and bit positions are the spec's decision D22. -/
def Obligations.LfoWrite : Prop :=
  ∀ (v : Byte) (s : State), s.live = true →
    ∃ t, exec (.wrLfo v) s = next t ∧
      (t.chip.lfoEnable = true ↔ v.toNat / 8 % 2 = 1) ∧ t.chip.lfoFreq.toNat = v.toNat % 8 ∧
      t = { s with chip := { s.chip with lfoEnable := t.chip.lfoEnable, lfoFreq := t.chip.lfoFreq } }

/-- 44 R156 with 40 R92, R93: a key write whose index is 3 or 7 changes nothing; any other addresses channel
`3*idx[2] + idx[1:0]` and delivers a key-on to each operator whose mask bit is 1 and a key-off to each other one. A
key-on acts on an un-keyed slot only, a key-off on a keyed one only (the spec's decisions D18, D22). -/
def Obligations.KeyWrite : Prop :=
  ∀ (v : Byte) (s : State), s.live = true →
    ∃ t, exec (.wrKey v) s = next t ∧
      (v.toNat % 4 = 3 → t = s) ∧
      (v.toNat % 4 ≠ 3 → ∃ c : Chan, c.val = 3 * (v.toNat / 4 % 2) + v.toNat % 4 ∧
        (∀ k, t.slot c k =
          if keyBit v (opOfSlot k) then
            (if (s.slot c k).egState = .release ∨ (s.slot c k).egState = .off then
              { s.slot c k with egState := .attack, envAcc := cfg.envTop, phase := 0 }
            else s.slot c k)
          else
            (if (s.slot c k).egState = .release ∨ (s.slot c k).egState = .off then s.slot c k
            else { s.slot c k with egState := .release })) ∧
        (∀ c', c' ≠ c → t.channel c' = s.channel c') ∧
        (t.channel c).SameRegs (s.channel c) ∧ t.SameOutside s)

/-! ## Operator registers -/

/-- 44 R157: detune and multiple, register numbers 0x30 to 0x3E. -/
def Obligations.DetuneMultipleWrite : Prop :=
  ∀ (p : Part) (k : SlotIx) (n : PartChan) (v : Byte) (s : State) (c : Chan), s.live = true →
    c.val = 3 * (partBit p).toNat + n.val →
    decode (.regWord (mkRegWord p (0x3#4 ++ BitVec.ofNat 2 k.val ++ BitVec.ofNat 2 n.val) v)) = .wrDtmul p k n v ∧
    ∃ t, exec (.wrDtmul p k n v) s = next t ∧
      t.SlotWritten s c k
        { s.slot c k with dt := BitVec.ofNat 3 (v.toNat / 16), mul := BitVec.ofNat 4 (v.toNat % 16) }

/-- 44 R158: total level, register numbers 0x40 to 0x4E. -/
def Obligations.TotalLevelWrite : Prop :=
  ∀ (p : Part) (k : SlotIx) (n : PartChan) (v : Byte) (s : State) (c : Chan), s.live = true →
    c.val = 3 * (partBit p).toNat + n.val →
    decode (.regWord (mkRegWord p (0x4#4 ++ BitVec.ofNat 2 k.val ++ BitVec.ofNat 2 n.val) v)) = .wrTl p k n v ∧
    ∃ t, exec (.wrTl p k n v) s = next t ∧
      t.SlotWritten s c k { s.slot c k with tl := BitVec.ofNat 7 (v.toNat % 128) }

/-- 44 R159: key scale and attack rate, register numbers 0x50 to 0x5E. -/
def Obligations.KeyScaleAttackWrite : Prop :=
  ∀ (p : Part) (k : SlotIx) (n : PartChan) (v : Byte) (s : State) (c : Chan), s.live = true →
    c.val = 3 * (partBit p).toNat + n.val →
    decode (.regWord (mkRegWord p (0x5#4 ++ BitVec.ofNat 2 k.val ++ BitVec.ofNat 2 n.val) v)) = .wrKsar p k n v ∧
    ∃ t, exec (.wrKsar p k n v) s = next t ∧
      t.SlotWritten s c k
        { s.slot c k with ks := BitVec.ofNat 2 (v.toNat / 64), ar := BitVec.ofNat 5 (v.toNat % 32) }

/-- 44 R160: AM enable and decay rate, register numbers 0x60 to 0x6E. -/
def Obligations.AmDecayWrite : Prop :=
  ∀ (p : Part) (k : SlotIx) (n : PartChan) (v : Byte) (s : State) (c : Chan), s.live = true →
    c.val = 3 * (partBit p).toNat + n.val →
    decode (.regWord (mkRegWord p (0x6#4 ++ BitVec.ofNat 2 k.val ++ BitVec.ofNat 2 n.val) v)) = .wrAmdr p k n v ∧
    ∃ t, exec (.wrAmdr p k n v) s = next t ∧
      t.SlotWritten s c k { s.slot c k with am := decide (128 ≤ v.toNat), dr := BitVec.ofNat 5 (v.toNat % 32) }

/-- 44 R161: sustain rate, register numbers 0x70 to 0x7E. -/
def Obligations.SustainRateWrite : Prop :=
  ∀ (p : Part) (k : SlotIx) (n : PartChan) (v : Byte) (s : State) (c : Chan), s.live = true →
    c.val = 3 * (partBit p).toNat + n.val →
    decode (.regWord (mkRegWord p (0x7#4 ++ BitVec.ofNat 2 k.val ++ BitVec.ofNat 2 n.val) v)) = .wrSr p k n v ∧
    ∃ t, exec (.wrSr p k n v) s = next t ∧
      t.SlotWritten s c k { s.slot c k with sr := BitVec.ofNat 5 (v.toNat % 32) }

/-- 44 R162: sustain level and release rate, register numbers 0x80 to 0x8E. -/
def Obligations.SustainLevelReleaseWrite : Prop :=
  ∀ (p : Part) (k : SlotIx) (n : PartChan) (v : Byte) (s : State) (c : Chan), s.live = true →
    c.val = 3 * (partBit p).toNat + n.val →
    decode (.regWord (mkRegWord p (0x8#4 ++ BitVec.ofNat 2 k.val ++ BitVec.ofNat 2 n.val) v)) = .wrSlrr p k n v ∧
    ∃ t, exec (.wrSlrr p k n v) s = next t ∧
      t.SlotWritten s c k
        { s.slot c k with sl := BitVec.ofNat 4 (v.toNat / 16), rr := BitVec.ofNat 4 (v.toNat % 16) }

/-- 44 R163: SSG-EG enable and mode, register numbers 0x90 to 0x9E. -/
def Obligations.SsgEgWrite : Prop :=
  ∀ (p : Part) (k : SlotIx) (n : PartChan) (v : Byte) (s : State) (c : Chan), s.live = true →
    c.val = 3 * (partBit p).toNat + n.val →
    decode (.regWord (mkRegWord p (0x9#4 ++ BitVec.ofNat 2 k.val ++ BitVec.ofNat 2 n.val) v)) = .wrSsgeg p k n v ∧
    ∃ t, exec (.wrSsgeg p k n v) s = next t ∧
      t.SlotWritten s c k
        { s.slot c k with ssgEn := decide (v.toNat / 8 % 2 = 1), ssgMode := BitVec.ofNat 3 (v.toNat % 8) }

/-! ## Channel registers -/

/-- 44 R164: the high frequency byte goes to the one latch of the core (the spec's decision D25) and nowhere else. -/
def Obligations.FnumHighWriteLatches : Prop :=
  ∀ (p : Part) (n : PartChan) (v : Byte) (s : State), s.live = true →
    ∃ t, exec (.wrFnhi p n v) s = next t ∧ t.chip.fnumLatch.toNat = v.toNat % 64 ∧
      t = { s with chip := { s.chip with fnumLatch := t.chip.fnumLatch } }

/-- 44 R165: the low frequency byte applies the latch and the byte together to its channel; the latch keeps its value
(one latch for the whole core: the spec's decision D25). -/
def Obligations.FnumLowWriteApplies : Prop :=
  ∀ (p : Part) (n : PartChan) (v : Byte) (s : State) (c : Chan), s.live = true →
    c.val = 3 * (partBit p).toNat + n.val →
    ∃ t, exec (.wrFnlo p n v) s = next t ∧
      t.ChannelWritten s c
        { s.channel c with
          block := BitVec.ofNat 3 (s.chip.fnumLatch.toNat / 8)
          fnum := BitVec.ofNat 11 (256 * (s.chip.fnumLatch.toNat % 8) + v.toNat) }

/-- 44 R166: feedback and algorithm, register numbers 0xB0 to 0xB2. -/
def Obligations.FeedbackAlgorithmWrite : Prop :=
  ∀ (p : Part) (n : PartChan) (v : Byte) (s : State) (c : Chan), s.live = true →
    c.val = 3 * (partBit p).toNat + n.val →
    decode (.regWord (mkRegWord p (0b101100#6 ++ BitVec.ofNat 2 n.val) v)) = .wrFbalg p n v ∧
    ∃ t, exec (.wrFbalg p n v) s = next t ∧
      t.ChannelWritten s c
        { s.channel c with fb := BitVec.ofNat 3 (v.toNat / 8), alg := BitVec.ofNat 3 (v.toNat % 8) }

/-- 44 R167: stereo enables and sensitivities; bit 7 left and bit 6 right are the spec's decision D26. -/
def Obligations.PanSensitivityWrite : Prop :=
  ∀ (p : Part) (n : PartChan) (v : Byte) (s : State) (c : Chan), s.live = true →
    c.val = 3 * (partBit p).toNat + n.val →
    ∃ t, exec (.wrPansens p n v) s = next t ∧
      t.ChannelWritten s c
        { s.channel c with
          panL := decide (128 ≤ v.toNat)
          panR := decide (v.toNat / 64 % 2 = 1)
          ams := BitVec.ofNat 2 (v.toNat / 16)
          fms := BitVec.ofNat 3 (v.toNat % 8) }

/-- 43 R143: over operations other than `RESET`, a channel's key code changes by a low frequency byte to that channel
only, and a slot's phase increment by that and by a detune and multiple write to that slot only; a data write counts
as the write it decodes into (the spec's own inference from R136, R141 and the register writes). -/
def Obligations.PitchChangesOnlyByItsWrites : Prop :=
  ∀ (i : Instr) (s t : State), exec i s = next t → i ≠ .reset → (∀ p v, i ≠ .dw p v) →
    ∀ c, (∀ p n v, i = .wrFnlo p n v → chanOf p n ≠ c) →
      keyCode cfg (t.channel c) = keyCode cfg (s.channel c) ∧
      ∀ k, (∀ p n v, i = .wrDtmul p k n v → chanOf p n ≠ c) →
        phaseInc cfg (t.channel c) (t.slot c k) = phaseInc cfg (s.channel c) (s.slot c k)

/-! ## Envelope generator -/

/-- 40 R86 to R88: the per-sample increment at the default `ENV_MAX` (the spec's decisions D3, D13, D14):
0 at rate 0, else `ENV_MAX * 2^(q - 2)` with `q` a quarter of the clamped key-scaled rate, rounded down. -/
def Obligations.EnvelopeIncrementRule : Prop :=
  ∀ (r5 : Nat) (ks : BitVec 2) (kc : BitVec 5),
    egInc cfg r5 ks kc =
      if r5 = 0 then 0 else 1536 * 2 ^ (min 63 (2 * r5 + kc.toNat / 2 ^ (3 - ks.toNat)) / 4)

/-- 40 R101, the source's property P1 in both readings of "rate": the increment is monotonically non-decreasing in the
rate register and in the key-scaled rate (the spec's own inference from R87 and R88, decisions D13, D14). -/
def Obligations.EnvelopeIncrementMonotone : Prop :=
  (∀ (r r' : Nat) (ks : BitVec 2) (kc : BitVec 5), 1 ≤ r → r ≤ r' → r' ≤ 31 →
    egInc cfg r ks kc ≤ egInc cfg r' ks kc) ∧
  (∀ k k' : Nat, 1 ≤ k → k ≤ k' → k' ≤ 63 →
    cfg.envTop / completionSamples k ≤ cfg.envTop / completionSamples k')

/-- 40 R95 to R100: what a `TICK` does to the envelope of every slot, by its state at the start of the tick. The
attack law and the test after the step are the spec's decisions D16, D17, the widening of the release rate D15, the
sustain levels D5, and 6144 and 402653184 come from ENV_MAX, D3 (log entry 5). Release at `ENV_TOP` with `rr = 0` goes
Off by the model's choice (log entry 17). -/
def Obligations.TickEnvelopeStep : Prop :=
  ∀ s : State, s.Ready →
    ∃ t, exec .tick s = next t ∧ ∀ c k,
      let old := s.slot c k
      let new := t.slot c k
      let kc := keyCode cfg (s.channel c)
      (old.egState = .attack →
        (∀ inc, inc = egInc cfg old.ar.toNat old.ks kc →
          new.envAcc = old.envAcc - (if inc = 0 then 0 else max 1 (inc * (old.envAcc / 65536) / 6144))) ∧
        new.egState = if new.envAcc < 65536 then .decay else .attack) ∧
      (old.egState = .decay →
        new.envAcc = min 402653184 (old.envAcc + egInc cfg old.dr.toNat old.ks kc) ∧
        new.egState =
          if (if old.sl.toNat = 15 then 5952 else 192 * old.sl.toNat) ≤ new.envAcc / 65536 then .sustain
          else .decay) ∧
      (old.egState = .sustain →
        new.envAcc = min 402653184 (old.envAcc + egInc cfg old.sr.toNat old.ks kc) ∧ new.egState = .sustain) ∧
      (old.egState = .release →
        new.envAcc =
          min 402653184
            (old.envAcc + egInc cfg (if old.rr = 0 then 0 else 2 * old.rr.toNat + 1) old.ks kc) ∧
        new.egState = if new.envAcc = 402653184 then .off else .release) ∧
      (old.egState = .off → new.envAcc = old.envAcc ∧ new.egState = .off)

/-- 40 R102: in states of the invariant a tick never lowers the attenuation in Decay, Sustain and Release, never raises
it in Attack, and keeps it in Off (the spec's own inference from R92 to R100). -/
def Obligations.TickEnvelopeDirection : Prop :=
  ∀ s t : State, s.Inv → exec .tick s = next t → ∀ c k,
    ((s.slot c k).egState = .attack → (t.slot c k).envAcc ≤ (s.slot c k).envAcc) ∧
    ((s.slot c k).egState = .decay ∨ (s.slot c k).egState = .sustain ∨ (s.slot c k).egState = .release →
      (s.slot c k).envAcc ≤ (t.slot c k).envAcc) ∧
    ((s.slot c k).egState = .off → (t.slot c k).envAcc = (s.slot c k).envAcc)

/-! ## Frequency and operators -/

/-- 43 R136: the key code is four times the block plus a note whose bit 1 is F-number bit 10 and whose bit 0 is
`f10 and (f9 or f8 or f7) or (not f10) and f9 and f8 and f7` (the spec's decision D12). -/
def Obligations.KeyCodeRule : Prop :=
  ∀ ch : Channel,
    (keyCode cfg ch).toNat =
      4 * ch.block.toNat + 2 * (ch.fnum.getLsbD 10).toNat +
        ((ch.fnum.getLsbD 10 && (ch.fnum.getLsbD 9 || ch.fnum.getLsbD 8 || ch.fnum.getLsbD 7)) ||
          (!ch.fnum.getLsbD 10 && ch.fnum.getLsbD 9 && ch.fnum.getLsbD 8 && ch.fnum.getLsbD 7)).toNat

/-- 43 R138 to R141 and 41 R114: a `TICK` advances the phase of every slot, whatever its envelope, by the phase
increment: the F-number shifted by the block, plus or minus twice the detune amount, wrapped to 18 bits, times the
multiplier in half-steps, times 2^10, mod 2^32 (the spec's decisions D19, D20). -/
def Obligations.TickAdvancesEveryPhase : Prop :=
  ∀ s : State, s.Ready →
    ∃ t, exec .tick s = next t ∧ ∀ c k,
      let ch := s.channel c
      let sl := s.slot c k
      let amount : Int := dtTable (BitVec.ofNat 2 (sl.dt.toNat % 4)) (keyCode cfg ch)
      let base : Int := ch.fnum.toNat * 2 ^ ch.block.toNat
      let fc : Int := (if sl.dt.toNat < 4 then base + 2 * amount else base - 2 * amount) % 262144
      let half : Int := if sl.mul = 0 then 1 else 2 * sl.mul.toNat
      ((t.slot c k).phase.toNat : Int) = (sl.phase.toNat + fc * half * 1024) % 4294967296

/-- 41 R111 to R113, R115, 42 R122 in a tick: operator 1 of every channel gives the operator function of its phase
before the advance (the model's reading, R112 before 20 R53: log entry 18) shifted by 2^21 times the feedback term, and of
the smaller of 6144 and its new attenuation plus 48 per step of total level; that is the newest entry of the feedback
history afterwards, the former newest being the older one (42 R123). Without feedback the phase is not shifted. The
numbers 6144, 48 and 2^21 are the spec's decisions D3, D4, D9 (log entry 5), the feedback term and the history's shift
on every tick D10. -/
def Obligations.TickOperatorOneOutput : Prop :=
  ∀ s : State, s.Ready →
    ∃ t, exec .tick s = next t ∧ ∀ c,
      (t.channel c).fbHist1 = (s.channel c).fbHist0 ∧
      (t.channel c).fbHist0.toInt =
        cfg.opWave (BitVec.ofInt 32 ((s.slot c 0).phase.toNat + fbMod cfg (s.channel c) * 2097152))
          (min 6144 ((t.slot c 0).envAcc / 65536 + 48 * (s.slot c 0).tl.toNat)) ∧
      ((s.channel c).fb = 0 →
        (t.channel c).fbHist0.toInt =
          cfg.opWave (s.slot c 0).phase (min 6144 ((t.slot c 0).envAcc / 65536 + 48 * (s.slot c 0).tl.toNat)))

/-- 41 R115: the modulation input shifts the phase by 2^21 units per unit mod 2^32 (the spec's decision D9) without
altering the stored phase, and 41 R111, R112: one operator's tick gives its output from the phase before the advance
(the model's reading, R112 before 20 R53: log entry 18) and from its attenuation plus 48 per step of total level, at most
6144 (the spec's decisions D3, D4; log entry 5). -/
def Obligations.ModulationShiftsPhase : Prop :=
  ∀ (ch : Channel) (k : SlotIx) (m : Int),
    (opGen cfg ch k m).2 =
      cfg.opWave (BitVec.ofInt 32 ((ch.slot.get k).phase.toNat + m * 2097152))
        (min 6144 ((ch.slot.get k).envAcc / 65536 + 48 * (ch.slot.get k).tl.toNat)) ∧
    ((opGen cfg ch k m).1.slot.get k).phase = (ch.slot.get k).phase + phaseInc cfg ch (ch.slot.get k) ∧
    (∀ j, j ≠ k → (opGen cfg ch k m).1.slot.get j = ch.slot.get j) ∧ (opGen cfg ch k m).1.SameRegs ch

/-- 00_scope R4, 41 R113: the machine's configuration (log entry 5) meets every constraint on the open fields, the lower
bound of the quiet threshold and the opcode table's 48 ratio bits (log entry 11) included, and its operator function,
whatever the free magnitude is (log entry 6), has every named property. -/
def Obligations.MachineConfigurationAdmissible : Prop := cfg.Admissible

/-- 41 R113: the exact real function, truncated toward zero (the spec's decision D8), has every property the spec names
of it. -/
def Obligations.ExactOpWaveHasNamedProperties : Prop :=
  ∀ f : BitVec 32 → Nat → Int, IsExactOpWave f 8191 6143 → OpWaveLaws f 8191 6143 6144

/-- 93 U9: the free magnitude reaches every operator function that has the named properties: the model excludes none
of them. -/
def Obligations.FreeOpWaveCoversAdmissible : Prop :=
  ∀ f : BitVec 32 → Nat → Int, OpWaveLaws f 8191 6143 6144 → ∃ raw, opWaveOf raw 8191 6143 = f

/-- 41 R113, the sample values of the exact function: all twenty rows of the table of R113 (truncation toward zero, the
peak and the quiet threshold are the spec's decisions D8, D7, D6). -/
def Obligations.ExactOpWaveSampleValues : Prop :=
  ∀ f : BitVec 32 → Nat → Int, IsExactOpWave f 8191 6143 →
    f 0x00000000#32 0 = 0 ∧ f 0x08000000#32 0 = 1597 ∧ f 0x10000000#32 0 = 3134 ∧ f 0x20000000#32 0 = 5791 ∧
    f 0x40000000#32 0 = 8191 ∧ f 0x60000000#32 0 = 5791 ∧ f 0x80000000#32 0 = 0 ∧ f 0xA0000000#32 0 = -5791 ∧
    f 0xC0000000#32 0 = -8191 ∧ f 0x40000000#32 1 = 8176 ∧ f 0x40000000#32 48 = 7513 ∧
    f 0x40000000#32 64 = 7300 ∧ f 0x40000000#32 192 = 5798 ∧ f 0x40000000#32 384 = 4105 ∧
    f 0x40000000#32 1280 = 819 ∧ f 0x40000000#32 2560 = 81 ∧ f 0x40000000#32 5009 = 1 ∧
    f 0x40000000#32 5010 = 0 ∧ f 0x40000000#32 6143 = 0 ∧ f 0x40000000#32 6144 = 0

/-! ## Feedback and algorithms -/

/-- 42 R122: the feedback term, 0 at feedback 0 regardless of the history; else the sum of the history divided by
`2^(9 - fb)` toward zero (the spec's decision D10), at most 4095 in magnitude at the default peak (D7, log entry 5). -/
def Obligations.FeedbackTermRule : Prop :=
  ∀ ch : Channel,
    (ch.fb = 0 → fbMod cfg ch = 0) ∧
    (ch.fb ≠ 0 → fbMod cfg ch = Int.tdiv (ch.fbHist0.toInt + ch.fbHist1.toInt) (2 ^ (9 - ch.fb.toNat))) ∧
    (ch.Inv → -4095 ≤ fbMod cfg ch ∧ fbMod cfg ch ≤ 4095)

/-- 42 R126 to R133: the modulation inputs of operators 2, 3 and 4 and the channel sample, algorithm by algorithm; the
operators are evaluated in natural order from this tick's outputs (R121, the spec's decision D11) in slots 0, 2, 1, 3
(00_scope R9), each from its phase before the advance (the model's reading, R112 before 20 R53: log entry 18). `TickResult`
says that a tick routes each channel so, after its envelope steps. -/
def Obligations.AlgorithmRouting : Prop :=
  ∀ (ch : Channel) (o1 o2 o3 o4 m2 m3 m4 : Int),
    o1 = opOutput cfg (ch.slot.get 0) (fbMod cfg ch) →
    o2 = opOutput cfg (ch.slot.get 2) m2 → o3 = opOutput cfg (ch.slot.get 1) m3 →
    o4 = opOutput cfg (ch.slot.get 3) m4 →
    (ch.alg = 0 → m2 = o1 → m3 = o2 → m4 = o3 → (route cfg ch).2 = o4) ∧
    (ch.alg = 1 → m2 = 0 → m3 = o1 + o2 → m4 = o3 → (route cfg ch).2 = o4) ∧
    (ch.alg = 2 → m2 = 0 → m3 = o2 → m4 = o1 + o3 → (route cfg ch).2 = o4) ∧
    (ch.alg = 3 → m2 = o1 → m3 = 0 → m4 = o2 + o3 → (route cfg ch).2 = o4) ∧
    (ch.alg = 4 → m2 = o1 → m3 = 0 → m4 = o3 → (route cfg ch).2 = o2 + o4) ∧
    (ch.alg = 5 → m2 = o1 → m3 = o1 → m4 = o1 → (route cfg ch).2 = o2 + o3 + o4) ∧
    (ch.alg = 6 → m2 = o1 → m3 = 0 → m4 = 0 → (route cfg ch).2 = o2 + o3 + o4) ∧
    (ch.alg = 7 → m2 = 0 → m3 = 0 → m4 = 0 → (route cfg ch).2 = o1 + o2 + o3 + o4)

/-- 42 R134 (a), the source's property P3: in algorithm 4 the channel sample is the sum of the samples of the two
chains alone: `b` has operators 3 and 4 silent, `d` operators 1 and 2 (the spec's own inference from R130). -/
def Obligations.AlgorithmFourIsTwoChains : Prop :=
  ∀ a b d : Channel, a.alg = 4 → b.alg = 4 → d.alg = 4 →
    a.fb = b.fb → a.fbHist0 = b.fbHist0 → a.fbHist1 = b.fbHist1 →
    b.slot.get 0 = a.slot.get 0 → b.slot.get 2 = a.slot.get 2 →
    (b.slot.get 1).envAcc = cfg.envTop → (b.slot.get 3).envAcc = cfg.envTop →
    d.slot.get 1 = a.slot.get 1 → d.slot.get 3 = a.slot.get 3 →
    (d.slot.get 0).envAcc = cfg.envTop → (d.slot.get 2).envAcc = cfg.envTop →
    (route cfg a).2 = (route cfg b).2 + (route cfg d).2

/-- 41 R117, 42 R134 (c), the source's property P4: with feedback 0 the feedback history cannot be heard: channels
that agree but for the history give the same sample, and agree again but for the older entry of the history (the
spec's own inference from R112 and R122). -/
def Obligations.FeedbackZeroIgnoresHistory : Prop :=
  ∀ (ch : Channel) (h0 h1 : Sample), ch.fb = 0 →
    (tickChannel cfg { ch with fbHist0 := h0, fbHist1 := h1 }).2 = (tickChannel cfg ch).2 ∧
    (tickChannel cfg { ch with fbHist0 := h0, fbHist1 := h1 }).1 =
      { (tickChannel cfg ch).1 with fbHist1 := h0 }

/-! ## TICK -/

/-- 45 R190, R192 to R194: an admitted `TICK` completes. It ticks every channel: first its four envelopes step, then
its operators are routed (`AlgorithmRouting`), each from its phase before the advance (log entry 18), and the sample is
what the routing answers. It hands back the sums of the channels' samples through their stereo enables divided by 6
toward zero and saturated, and leaves the parameter registers, the latches and the resampler alone (every channel, and
truncation then saturation: the spec's decisions D28, D29). -/
def Obligations.TickResult : Prop :=
  ∀ s : State, s.Ready →
    ∃ t y, exec .tick s = next t ∧ t.outputs = s.outputs ++ [y] ∧
      (∀ c, t.channel c = (tickChannel cfg (s.channel c)).1) ∧
      (∀ c, tickChannel cfg (s.channel c) = route cfg (egTickChannel cfg (s.channel c)) ∧
        egTickChannel cfg (s.channel c) =
          { s.channel c with slot := (egTickChannel cfg (s.channel c)).slot } ∧
        ∀ k, (egTickChannel cfg (s.channel c)).slot.get k =
          { s.slot c k with envAcc := (t.slot c k).envAcc, egState := (t.slot c k).egState }) ∧
      y.left.toInt =
        sat16 (Int.tdiv (∑ c : Chan, if (s.channel c).panL then (tickChannel cfg (s.channel c)).2 else 0) 6) ∧
      y.right.toInt =
        sat16 (Int.tdiv (∑ c : Chan, if (s.channel c).panR then (tickChannel cfg (s.channel c)).2 else 0) 6) ∧
      t.chip.SameParams s.chip ∧ t.chip.addrLatch = s.chip.addrLatch ∧ t.chip.rs = s.chip.rs ∧
      t.live = s.live ∧ t.inputs = s.inputs

/-- 45 R193, R194: at the default peak (the spec's decision D7, log entry 5) the quotient of each side lies in
[-32764, 32764], so the saturation never acts, and equal enables give equal sides (the spec's own inference from R193
and R4; truncation is its decision D29). -/
def Obligations.MixNeverSaturates : Prop :=
  ∀ chip : Chip,
    (∀ c, -32764 ≤ (tickChannel cfg (chip.ch.get c)).2 ∧ (tickChannel cfg (chip.ch.get c)).2 ≤ 32764) ∧
    (tickChip cfg chip).2.left.toInt =
      Int.tdiv (∑ c : Chan, if (chip.ch.get c).panL then (tickChannel cfg (chip.ch.get c)).2 else 0) 6 ∧
    (tickChip cfg chip).2.right.toInt =
      Int.tdiv (∑ c : Chan, if (chip.ch.get c).panR then (tickChannel cfg (chip.ch.get c)).2 else 0) 6 ∧
    -32764 ≤ (tickChip cfg chip).2.left.toInt ∧ (tickChip cfg chip).2.left.toInt ≤ 32764 ∧
    -32764 ≤ (tickChip cfg chip).2.right.toInt ∧ (tickChip cfg chip).2.right.toInt ≤ 32764 ∧
    ((∀ c, (chip.ch.get c).panL = (chip.ch.get c).panR) →
      (tickChip cfg chip).2.left = (tickChip cfg chip).2.right)

/-- 45 R196: if every slot of every channel is Off, a `TICK` of a state of the invariant returns (0, 0) and changes
only the phases, by the phase increment, and the feedback history, whose newest entry becomes 0 (the spec's own
inference from R190, R100, R113): every other register of a channel, the latches, the LFO register, the resampler and
what lies outside the block stay. -/
def Obligations.SilentTickReturnsZero : Prop :=
  ∀ s t : State, s.Inv → (∀ c k, (s.slot c k).egState = .off) → exec .tick s = next t →
    t = { s with outputs := s.outputs ++ [⟨0, 0⟩], chip := { s.chip with ch := t.chip.ch } } ∧
    ∀ c,
      t.channel c =
        { s.channel c with slot := (t.channel c).slot, fbHist0 := 0, fbHist1 := (s.channel c).fbHist0 } ∧
      ∀ k,
        t.slot c k = { s.slot c k with phase := (s.slot c k).phase + phaseInc cfg (s.channel c) (s.slot c k) }

/-- 45 R191: under the default policies (the spec's decisions D30, D44; log entries 7, 8) a `TICK` while the LFO is
enabled is refused, and so is one while only an SSG-EG enable is set. Under any configuration whose policy for every
enable that is set is `ignore`, a tick runs and the enables have no effect on it: it hands back the pair, and leaves
the state, of a tick with the enables cleared, and the enables keep their values. -/
def Obligations.TickAdmission : Prop :=
  (∀ s : State, s.live = true → s.chip.lfoEnable = true → exec .tick s = refused .lfoNotInSource) ∧
  (∀ s : State, s.live = true → s.chip.lfoEnable = false → (∃ c k, (s.slot c k).ssgEn = true) →
    exec .tick s = refused .ssgNotInSource) ∧
  (∀ (g : Cfg) (chip : Chip), (chip.lfoEnable = true → g.lfoPolicy = .ignore) →
    ((∃ c k, ((chip.ch.get c).slot.get k).ssgEn = true) → g.ssgPolicy = .ignore) →
    ∃ after y, tick g chip = .ok (after, y) ∧ tick g chip.withoutEnables = .ok (after.withoutEnables, y) ∧
      after.lfoEnable = chip.lfoEnable ∧
      ∀ c k, ((after.ch.get c).slot.get k).ssgEn = ((chip.ch.get c).slot.get k).ssgEn)

/-! ## HOUT -/

/-- 46 R202: with the position below 1.0 an `HOUT` performs no tick, so it completes whatever the enables: it hands back
the interpolation between the held pairs (toward zero on the difference, the spec's decision D32) and advances the
position by the ratio; nothing else changes. -/
def Obligations.HoutWithoutTick : Prop :=
  ∀ (ratio : Ratio) (s : State), s.live = true → s.chip.rs.pos < 4294967296 →
    ∃ t y, exec (.hout ratio) s = next t ∧ t.outputs = s.outputs ++ [y] ∧
      y.left.toInt = s.chip.rs.prev.left.toInt +
        Int.tdiv ((s.chip.rs.cur.left.toInt - s.chip.rs.prev.left.toInt) * s.chip.rs.pos) 4294967296 ∧
      y.right.toInt = s.chip.rs.prev.right.toInt +
        Int.tdiv ((s.chip.rs.cur.right.toInt - s.chip.rs.prev.right.toInt) * s.chip.rs.pos) 4294967296 ∧
      t.chip.rs.pos = s.chip.rs.pos + ratio.toNat ∧
      t = { s with outputs := t.outputs, chip := { s.chip with rs := { s.chip.rs with pos := t.chip.rs.pos } } }

/-- 46 R202, the loop: with the position at 1.0 or more an `HOUT` first performs a `TICK`, whose pair becomes the
current one and the current one the previous, and lowers the position by 1.0; if the tick is refused the whole `HOUT`
is (a refused tick: log entries 7, 8). -/
def Obligations.HoutPullsTick : Prop :=
  ∀ (ratio : Ratio) (s : State), s.live = true → 4294967296 ≤ s.chip.rs.pos →
    (∀ (u v : State) (y : Pair) (pos : Nat), exec .tick s = next u → u.outputs = s.outputs ++ [y] →
      pos + 4294967296 = s.chip.rs.pos →
      v = { s with chip := { u.chip with rs := { pos := pos, prev := s.chip.rs.cur, cur := y } } } →
      exec (.hout ratio) s = exec (.hout ratio) v) ∧
    (∀ f, exec .tick s = refused f → exec (.hout ratio) s = refused f)

/-- 46 R203, R204: an `HOUT` of a ready state completes with exactly `floor(pos / 1.0)` ticks, seen in every phase,
leaves the position at its fraction plus the ratio, below 1.0 plus the ratio, and leaves the parameter registers and
the address latches alone (the spec's own inference from R202; the formats are its decision D31). -/
def Obligations.HoutTickCountAndPosition : Prop :=
  ∀ (ratio : Ratio) (s : State), s.Ready →
    ∃ t, exec (.hout ratio) s = next t ∧
      t.chip.rs.pos = s.chip.rs.pos % 4294967296 + ratio.toNat ∧
      t.chip.rs.pos < 4294967296 + ratio.toNat ∧
      (∀ c k, (t.slot c k).phase =
        (s.slot c k).phase +
          BitVec.ofNat 32 (s.chip.rs.pos / 4294967296) * phaseInc cfg (s.channel c) (s.slot c k)) ∧
      t.chip.SameParams s.chip ∧ t.chip.addrLatch = s.chip.addrLatch ∧ t.live = s.live ∧ t.inputs = s.inputs

/-- 46 R202: the host sample lies between the previous and the current pair inclusive, on each side (the spec's own
inference from `0 <= f < ONE`). -/
def Obligations.HoutSampleBetweenHeldPairs : Prop :=
  ∀ (ratio : Ratio) (s t : State), exec (.hout ratio) s = next t →
    ∃ y, t.outputs = s.outputs ++ [y] ∧
      min t.chip.rs.prev.left.toInt t.chip.rs.cur.left.toInt ≤ y.left.toInt ∧
      y.left.toInt ≤ max t.chip.rs.prev.left.toInt t.chip.rs.cur.left.toInt ∧
      min t.chip.rs.prev.right.toInt t.chip.rs.cur.right.toInt ≤ y.right.toInt ∧
      y.right.toInt ≤ max t.chip.rs.prev.right.toInt t.chip.rs.cur.right.toInt

/-! ## RESET and KILL -/

/-- 47 R210, 10_state R24 (values: the spec's decisions D33, D34): `RESET` completes from every state, the power-up
state included (70_reset R240), and puts every piece of state of the block to its reset value. -/
def Obligations.ResetResult : Prop :=
  ∀ s : State,
    ∃ t, exec .reset s = next t ∧ t.live = true ∧
      (∀ p, t.chip.addrLatch.get p = 0) ∧ t.chip.fnumLatch = 0 ∧ t.chip.lfoEnable = false ∧ t.chip.lfoFreq = 0 ∧
      (∀ c, (t.channel c).alg = 0 ∧ (t.channel c).fb = 0 ∧ (t.channel c).block = 0 ∧ (t.channel c).fnum = 0 ∧
        (t.channel c).panL = true ∧ (t.channel c).panR = true ∧ (t.channel c).ams = 0 ∧ (t.channel c).fms = 0 ∧
        (t.channel c).fbHist0 = 0 ∧ (t.channel c).fbHist1 = 0) ∧
      (∀ c k, t.slot c k =
        { dt := 0, mul := 0, tl := 0, ks := 0, ar := 0, am := false, dr := 0, sr := 0, sl := 0, rr := 0,
          ssgEn := false, ssgMode := 0, phase := 0, egState := .off, envAcc := 0x18000000 }) ∧
      t.chip.rs = { pos := 0, prev := ⟨0, 0⟩, cur := ⟨0, 0⟩ } ∧ t.inputs = s.inputs ∧ t.outputs = s.outputs

/-- 47 R212 (what "resets state" means: the spec's decision D35; ENV_MAX: D3, log entry 5): `KILL` puts every slot Off
at `ENV_TOP` and changes nothing else. -/
def Obligations.KillResult : Prop :=
  ∀ s : State, s.live = true →
    ∃ t, exec .kill s = next t ∧
      (∀ c k, t.slot c k = { s.slot c k with egState := .off, envAcc := 402653184 }) ∧
      (∀ c, (t.channel c).SameRegs (s.channel c)) ∧ t.SameOutside s

/-- 47 R212: the next `TICK` after a `KILL` returns (0, 0), from every ready state (what `KILL` resets: the spec's
decision D35). -/
def Obligations.TickAfterKillIsSilent : Prop :=
  ∀ s : State, s.Ready →
    ∃ t u, exec .kill s = next t ∧ exec .tick t = next u ∧ u.outputs = s.outputs ++ [⟨0, 0⟩]
end

