-- ==== Sys2Proof/Laws/Bank.lean ====
section
/-! SUPPORT. Read-after-write laws of the banks: what is written is read back, everything else is left alone. -/

namespace Sys2Proof.Machine

variable {α β : Type}

@[simp] theorem Bank2.get_set_same (b : Bank2 α) (i : Part) (x : α) : (b.set i x).get i = x := by cases i <;> rfl

theorem Bank2.get_set_ne (b : Bank2 α) {i j : Part} (x : α) (h : j ≠ i) : (b.set i x).get j = b.get j := by
  cases i <;> cases j <;> first | rfl | exact absurd rfl h

@[simp] theorem Bank4.get_set_same (b : Bank4 α) (i : SlotIx) (x : α) : (b.set i x).get i = x := by
  fin_cases i <;> rfl

theorem Bank4.get_set_ne (b : Bank4 α) {i j : SlotIx} (x : α) (h : j ≠ i) : (b.set i x).get j = b.get j := by
  fin_cases i <;> fin_cases j <;> first | rfl | exact absurd rfl h

theorem Bank4.get_set (b : Bank4 α) (i j : SlotIx) (x : α) : (b.set i x).get j = if j = i then x else b.get j := by
  split
  · subst_vars; simp
  · exact Bank4.get_set_ne b x ‹_›

@[simp] theorem Bank4.get_map (f : α → β) (b : Bank4 α) (i : SlotIx) : (b.map f).get i = f (b.get i) := by
  fin_cases i <;> rfl

theorem Bank4.ext_get {a b : Bank4 α} (h : ∀ i, a.get i = b.get i) : a = b := by
  cases a; cases b
  simpa [Bank4.get] using And.intro (h 0) (And.intro (h 1) (And.intro (h 2) (h 3)))

theorem Bank4.any_eq_true (p : α → Bool) (b : Bank4 α) : b.any p = true ↔ ∃ i, p (b.get i) = true := by
  simp [Bank4.any, Fin.exists_fin_succ, Bank4.get, or_assoc]

@[simp] theorem Bank6.get_set_same (b : Bank6 α) (i : Chan) (x : α) : (b.set i x).get i = x := by
  fin_cases i <;> rfl

theorem Bank6.get_set_ne (b : Bank6 α) {i j : Chan} (x : α) (h : j ≠ i) : (b.set i x).get j = b.get j := by
  fin_cases i <;> fin_cases j <;> first | rfl | exact absurd rfl h

theorem Bank6.get_set (b : Bank6 α) (i j : Chan) (x : α) : (b.set i x).get j = if j = i then x else b.get j := by
  split
  · subst_vars; simp
  · exact Bank6.get_set_ne b x ‹_›

@[simp] theorem Bank6.get_map (f : α → β) (b : Bank6 α) (i : Chan) : (b.map f).get i = f (b.get i) := by
  fin_cases i <;> rfl

theorem Bank6.ext_get {a b : Bank6 α} (h : ∀ i, a.get i = b.get i) : a = b := by
  cases a; cases b
  simpa [Bank6.get] using
    And.intro (h 0) (And.intro (h 1) (And.intro (h 2) (And.intro (h 3) (And.intro (h 4) (h 5)))))

theorem Bank6.any_eq_true (p : α → Bool) (b : Bank6 α) : b.any p = true ↔ ∃ i, p (b.get i) = true := by
  simp [Bank6.any, Fin.exists_fin_succ, Bank6.get, or_assoc]

/-- The sum over a mapped bank is the sum over the bank. -/
theorem Bank6.sum_map (g : α → β) (f : β → Int) (b : Bank6 α) : (b.map g).sum f = b.sum fun x => f (g x) := rfl

/-- The sum depends on the six values alone. -/
theorem Bank6.sum_congr {f h : α → Int} {b : Bank6 α} (e : ∀ i, f (b.get i) = h (b.get i)) : b.sum f = b.sum h := by
  have := e 0; have := e 1; have := e 2; have := e 3; have := e 4; have := e 5
  simp_all [Bank6.sum, Bank6.get]

end Sys2Proof.Machine
end

