-- ==== Sys2Proof/Laws/Decode.lean ====
section
/-!
SUPPORT. The fields of a word that was put together are the fields it was put together from, and what the decoder of
register-write words can select.
-/

namespace Sys2Proof

@[simp] theorem partOfBit_partBit (p : Part) : partOfBit ((partBit p).getLsbD 0) = p := by cases p <;> rfl

@[simp] theorem regWordPart_mk (p : Part) (r v : Byte) : regWordPart (mkRegWord p r v) = p := by
  unfold regWordPart mkRegWord
  rw [BitVec.getLsbD_append, BitVec.getLsbD_append]
  cases p <;> rfl

@[simp] theorem regWordReg_mk (p : Part) (r v : Byte) : regWordReg (mkRegWord p r v) = r := by
  unfold regWordReg mkRegWord
  apply BitVec.eq_of_getLsbD_eq
  intro i hi
  simp only [BitVec.getLsbD_extractLsb', BitVec.getLsbD_append]
  simp [hi]

@[simp] theorem regWordValue_mk (p : Part) (r v : Byte) : regWordValue (mkRegWord p r v) = v := by
  unfold regWordValue mkRegWord
  apply BitVec.eq_of_getLsbD_eq
  intro i hi
  simp only [BitVec.getLsbD_extractLsb', BitVec.getLsbD_append]
  simp [hi]

/-- The decoder of a register-write word reads the three operands of the write (30_encoding R62). -/
@[simp] theorem decodeRegWord_mk (p : Part) (r v : Byte) : decodeRegWord (mkRegWord p r v) = decodeReg p r v := by
  simp [decodeRegWord]

/-- The register writes, format W of the opcode table. -/
def Instr.isRegWrite : Instr → Bool
  | .aw _ _ => false
  | .dw _ _ => false
  | .wrLfo _ => true
  | .wrKey _ => true
  | .wrDtmul _ _ _ _ => true
  | .wrTl _ _ _ _ => true
  | .wrKsar _ _ _ _ => true
  | .wrAmdr _ _ _ _ => true
  | .wrSr _ _ _ _ => true
  | .wrSlrr _ _ _ _ => true
  | .wrSsgeg _ _ _ _ => true
  | .wrFnlo _ _ _ => true
  | .wrFnhi _ _ _ => true
  | .wrFbalg _ _ _ => true
  | .wrPansens _ _ _ => true
  | .wrIgnored _ _ _ => true
  | .tick => false
  | .hout _ => false
  | .reset => false
  | .kill => false

theorem decodeBanked_isRegWrite (p : Part) (r : Byte) (n : PartChan) (v : Byte) :
    (decodeBanked p r n v).isRegWrite = true := by
  unfold decodeBanked
  repeat' split
  all_goals rfl

/-- A register-write word selects a register write and nothing else (30_encoding R64). -/
theorem decodeReg_isRegWrite (p : Part) (r v : Byte) : (decodeReg p r v).isRegWrite = true := by
  unfold decodeReg
  split
  · rfl
  split
  · rfl
  split
  · rfl
  · exact decodeBanked_isRegWrite _ _ _ _

theorem decodeRegWord_isRegWrite (w : RegWord) : (decodeRegWord w).isRegWrite = true := decodeReg_isRegWrite _ _ _

end Sys2Proof
end

