-- ==== Sys2Proof/Laws/State.lean ====
section
/-!
SUPPORT. One lemma per field per update of the state, so that no later proof unfolds a record update.
-/

namespace Sys2Proof.Machine

/-! ## The configuration's values -/

@[simp] theorem cfg_envMax : cfg.envMax = 6144 := rfl
@[simp] theorem cfg_envTop : cfg.envTop = 402653184 := rfl
@[simp] theorem cfg_tlStep : cfg.tlStep = 48 := rfl
@[simp] theorem cfg_quietThreshold : cfg.quietThreshold = 6143 := rfl
@[simp] theorem cfg_peak : cfg.peak = 8191 := rfl
@[simp] theorem cfg_lfoPolicy : cfg.lfoPolicy = .refuse := rfl
@[simp] theorem cfg_ssgPolicy : cfg.ssgPolicy = .refuse := rfl
@[simp] theorem cfg_one : cfg.one = 4294967296 := rfl
@[simp] theorem cfg_ratioEnd : cfg.ratioEnd = 281474976710656 := rfl

theorem resampler_one_pos (g : Cfg) : 0 < g.one := Nat.pow_pos (by decide)

/-! ## A slot or a channel changed -/

@[simp] theorem Channel.modifySlot_slot_same (ch : Channel) (k : SlotIx) (f : Slot → Slot) :
    (ch.modifySlot k f).slot.get k = f (ch.slot.get k) := by simp [Channel.modifySlot]

theorem Channel.modifySlot_slot (ch : Channel) (k j : SlotIx) (f : Slot → Slot) :
    (ch.modifySlot k f).slot.get j = if j = k then f (ch.slot.get k) else ch.slot.get j := by
  simp [Channel.modifySlot, Bank4.get_set]

section
variable (ch : Channel) (k : SlotIx) (f : Slot → Slot)
@[simp] theorem Channel.modifySlot_alg : (ch.modifySlot k f).alg = ch.alg := rfl
@[simp] theorem Channel.modifySlot_fb : (ch.modifySlot k f).fb = ch.fb := rfl
@[simp] theorem Channel.modifySlot_block : (ch.modifySlot k f).block = ch.block := rfl
@[simp] theorem Channel.modifySlot_fnum : (ch.modifySlot k f).fnum = ch.fnum := rfl
@[simp] theorem Channel.modifySlot_panL : (ch.modifySlot k f).panL = ch.panL := rfl
@[simp] theorem Channel.modifySlot_panR : (ch.modifySlot k f).panR = ch.panR := rfl
@[simp] theorem Channel.modifySlot_ams : (ch.modifySlot k f).ams = ch.ams := rfl
@[simp] theorem Channel.modifySlot_fms : (ch.modifySlot k f).fms = ch.fms := rfl
@[simp] theorem Channel.modifySlot_fbHist0 : (ch.modifySlot k f).fbHist0 = ch.fbHist0 := rfl
@[simp] theorem Channel.modifySlot_fbHist1 : (ch.modifySlot k f).fbHist1 = ch.fbHist1 := rfl
end

theorem Chip.modifyChannel_ch (chip : Chip) (c d : Chan) (f : Channel → Channel) :
    (chip.modifyChannel c f).ch.get d = if d = c then f (chip.ch.get c) else chip.ch.get d := by
  simp [Chip.modifyChannel, Bank6.get_set]

@[simp] theorem Chip.modifyChannel_ch_same (chip : Chip) (c : Chan) (f : Channel → Channel) :
    (chip.modifyChannel c f).ch.get c = f (chip.ch.get c) := by simp [Chip.modifyChannel]

section
variable (chip : Chip) (c : Chan) (f : Channel → Channel)
@[simp] theorem Chip.modifyChannel_addrLatch : (chip.modifyChannel c f).addrLatch = chip.addrLatch := rfl
@[simp] theorem Chip.modifyChannel_fnumLatch : (chip.modifyChannel c f).fnumLatch = chip.fnumLatch := rfl
@[simp] theorem Chip.modifyChannel_lfoEnable : (chip.modifyChannel c f).lfoEnable = chip.lfoEnable := rfl
@[simp] theorem Chip.modifyChannel_lfoFreq : (chip.modifyChannel c f).lfoFreq = chip.lfoFreq := rfl
@[simp] theorem Chip.modifyChannel_rs : (chip.modifyChannel c f).rs = chip.rs := rfl
end

section
variable (chip : Chip) (c : Chan) (k : SlotIx) (f : Slot → Slot)
@[simp] theorem Chip.modifySlot_addrLatch : (chip.modifySlot c k f).addrLatch = chip.addrLatch := rfl
@[simp] theorem Chip.modifySlot_fnumLatch : (chip.modifySlot c k f).fnumLatch = chip.fnumLatch := rfl
@[simp] theorem Chip.modifySlot_lfoEnable : (chip.modifySlot c k f).lfoEnable = chip.lfoEnable := rfl
@[simp] theorem Chip.modifySlot_lfoFreq : (chip.modifySlot c k f).lfoFreq = chip.lfoFreq := rfl
@[simp] theorem Chip.modifySlot_rs : (chip.modifySlot c k f).rs = chip.rs := rfl
end

/-- Every slot after one slot of one channel is changed. -/
theorem Chip.modifySlot_slot (chip : Chip) (c d : Chan) (k j : SlotIx) (f : Slot → Slot) :
    ((chip.modifySlot c k f).ch.get d).slot.get j =
      if d = c ∧ j = k then f ((chip.ch.get c).slot.get k) else (chip.ch.get d).slot.get j := by
  unfold Chip.modifySlot
  rw [Chip.modifyChannel_ch]
  by_cases h : d = c
  · subst h; simp [Channel.modifySlot_slot]
  · simp [h]

/-! ## The state around the block -/

section
variable (s : State) (chip : Chip)
@[simp] theorem State.withChip_chip : (s.withChip chip).chip = chip := rfl
@[simp] theorem State.withChip_live : (s.withChip chip).live = s.live := rfl
@[simp] theorem State.withChip_inputs : (s.withChip chip).inputs = s.inputs := rfl
@[simp] theorem State.withChip_outputs : (s.withChip chip).outputs = s.outputs := rfl
@[simp] theorem State.dropInput_chip : s.dropInput.chip = s.chip := rfl
@[simp] theorem State.dropInput_live : s.dropInput.live = s.live := rfl
@[simp] theorem State.dropInput_inputs : s.dropInput.inputs = s.inputs.tail := rfl
@[simp] theorem State.dropInput_outputs : s.dropInput.outputs = s.outputs := rfl
end

/-! ## Events and units on a slot -/

section
variable (g : Cfg) (ch : Channel) (sl : Slot)
@[simp] theorem advancePhase_phase : (advancePhase g ch sl).phase = sl.phase + phaseInc g ch sl := rfl
@[simp] theorem advancePhase_egState : (advancePhase g ch sl).egState = sl.egState := rfl
@[simp] theorem advancePhase_envAcc : (advancePhase g ch sl).envAcc = sl.envAcc := rfl
@[simp] theorem silence_phase : (silence g sl).phase = sl.phase := rfl
@[simp] theorem silence_egState : (silence g sl).egState = .off := rfl
@[simp] theorem silence_envAcc : (silence g sl).envAcc = g.envTop := rfl
end

section
variable (ch : Channel) (o1 : Int)
@[simp] theorem pushHistory_slot : (pushHistory ch o1).slot = ch.slot := rfl
@[simp] theorem pushHistory_alg : (pushHistory ch o1).alg = ch.alg := rfl
@[simp] theorem pushHistory_fb : (pushHistory ch o1).fb = ch.fb := rfl
@[simp] theorem pushHistory_block : (pushHistory ch o1).block = ch.block := rfl
@[simp] theorem pushHistory_fnum : (pushHistory ch o1).fnum = ch.fnum := rfl
@[simp] theorem pushHistory_panL : (pushHistory ch o1).panL = ch.panL := rfl
@[simp] theorem pushHistory_panR : (pushHistory ch o1).panR = ch.panR := rfl
@[simp] theorem pushHistory_ams : (pushHistory ch o1).ams = ch.ams := rfl
@[simp] theorem pushHistory_fms : (pushHistory ch o1).fms = ch.fms := rfl
@[simp] theorem pushHistory_fbHist0 : (pushHistory ch o1).fbHist0 = toSample o1 := rfl
@[simp] theorem pushHistory_fbHist1 : (pushHistory ch o1).fbHist1 = ch.fbHist0 := rfl
end

section
variable (g : Cfg) (ch : Channel)
@[simp] theorem egTickChannel_slot : (egTickChannel g ch).slot = ch.slot.map (egTick g (keyCode g ch)) := rfl
@[simp] theorem egTickChannel_alg : (egTickChannel g ch).alg = ch.alg := rfl
@[simp] theorem egTickChannel_fb : (egTickChannel g ch).fb = ch.fb := rfl
@[simp] theorem egTickChannel_block : (egTickChannel g ch).block = ch.block := rfl
@[simp] theorem egTickChannel_fnum : (egTickChannel g ch).fnum = ch.fnum := rfl
@[simp] theorem egTickChannel_panL : (egTickChannel g ch).panL = ch.panL := rfl
@[simp] theorem egTickChannel_panR : (egTickChannel g ch).panR = ch.panR := rfl
@[simp] theorem egTickChannel_ams : (egTickChannel g ch).ams = ch.ams := rfl
@[simp] theorem egTickChannel_fms : (egTickChannel g ch).fms = ch.fms := rfl
@[simp] theorem egTickChannel_fbHist0 : (egTickChannel g ch).fbHist0 = ch.fbHist0 := rfl
@[simp] theorem egTickChannel_fbHist1 : (egTickChannel g ch).fbHist1 = ch.fbHist1 := rfl
end

section
variable (g : Cfg) (rs : Resampler) (y : Pair) (ratio : Nat)
@[simp] theorem Resampler.shift_prev : (rs.shift g y).prev = rs.cur := rfl
@[simp] theorem Resampler.shift_cur : (rs.shift g y).cur = y := rfl
@[simp] theorem Resampler.shift_pos : (rs.shift g y).pos = lowerPos g rs.pos := rfl
@[simp] theorem Resampler.advance_prev : (rs.advance ratio).prev = rs.prev := rfl
@[simp] theorem Resampler.advance_cur : (rs.advance ratio).cur = rs.cur := rfl
@[simp] theorem Resampler.advance_pos : (rs.advance ratio).pos = rs.pos + ratio := rfl
end

end Sys2Proof.Machine
end

