-- ==== Sys2Proof/Laws/Ops.lean ====
section
/-!
SUPPORT. What each shared operation can answer, said once: the guard of the power-up state, the writes, the answer of
an operation that hands back samples, and the completion of a step.
-/

namespace Sys2Proof.Machine

/-- A next state behind the guard: a reset has been performed, and the operation answered it. -/
theorem whenLive_next {s t : State} {r : Result} : whenLive s r = .next t ↔ s.live = true ∧ r = .next t := by
  unfold whenLive; split <;> simp_all

theorem whenLive_live {s : State} (h : s.live = true) (r : Result) : whenLive s r = r := by simp [whenLive, h]

theorem whenLive_dead {s : State} (h : s.live = false) (r : Result) : whenLive s r = .fault .beforeReset := by
  simp [whenLive, h]

/-- A write answers exactly one next state once a reset has been performed. -/
theorem writeChip_next {s t : State} {f : Chip → Chip} :
    writeChip s f = .next t ↔ s.live = true ∧ t = s.withChip (f s.chip) := by
  rw [writeChip, whenLive_next, Host.Outcome.next.injEq, eq_comm (a := t)]

theorem writeChannel_next {s t : State} {c : Chan} {f : Channel → Channel} :
    writeChannel s c f = .next t ↔ s.live = true ∧ t = s.withChip (s.chip.modifyChannel c f) := by
  simp [writeChannel, writeChip_next]

theorem writeSlot_next {s t : State} {c : Chan} {k : SlotIx} {f : Slot → Slot} :
    writeSlot s c k f = .next t ↔ s.live = true ∧ t = s.withChip (s.chip.modifySlot c k f) := by
  simp [writeSlot, writeChip_next]

/-- An operation that hands back samples answers a next state exactly when it is not refused. -/
theorem answer_next {s t : State} {r : Except Refusal (Chip × Pair)} :
    answer s r = .next t ↔
      ∃ chip y, r = .ok (chip, y) ∧ t = { s with chip := chip, outputs := s.outputs ++ [y] } := by
  rcases r with r | ⟨chip, y⟩
  · simp [answer]
  · simp [answer, @eq_comm _ t]

/-- A completed step is a completed operation with its request taken. -/
theorem retire_next {r : Result} {t : State} : retire r = .next t ↔ ∃ u, r = .next u ∧ t = u.dropInput := by
  cases r <;> simp [retire, @eq_comm _ t]

/-- A step does nothing, or performs the oldest request. -/
theorem step_cases (s : State) :
    (s.inputs = [] ∧ step s = .next s) ∨
    (∃ r rest, s.inputs = r :: rest ∧ step s = retire (exec (decodeRequest r) s)) := by
  unfold step State.fetch
  cases h : s.inputs with
  | nil => simp
  | cons r rest => exact .inr ⟨r, rest, rfl, by simp⟩

end Sys2Proof.Machine
end

