-- ==== Sys2Proof/Laws/Engine.lean ====
section
/-!
SUPPORT. The envelope tick, the routing of a channel and the tick of the block, each described once: what it writes,
what it leaves alone, and a closed form of the channel sample.
-/

namespace Sys2Proof.Machine

variable (g : Cfg)

/-! ## Envelope tick: the parameter registers and the phase stay -/

section
variable (kc : BitVec 5) (sl : Slot)

/-- An envelope tick writes the accumulator and the envelope state only (40 R95). -/
theorem egTick_eq (kc : BitVec 5) (sl : Slot) :
    egTick g kc sl = { sl with envAcc := (egTick g kc sl).envAcc, egState := (egTick g kc sl).egState } := by
  unfold egTick
  split <;> rfl

@[simp] theorem egTick_dt : (egTick g kc sl).dt = sl.dt := by rw [egTick_eq]
@[simp] theorem egTick_mul : (egTick g kc sl).mul = sl.mul := by rw [egTick_eq]
@[simp] theorem egTick_tl : (egTick g kc sl).tl = sl.tl := by rw [egTick_eq]
@[simp] theorem egTick_ks : (egTick g kc sl).ks = sl.ks := by rw [egTick_eq]
@[simp] theorem egTick_ar : (egTick g kc sl).ar = sl.ar := by rw [egTick_eq]
@[simp] theorem egTick_am : (egTick g kc sl).am = sl.am := by rw [egTick_eq]
@[simp] theorem egTick_dr : (egTick g kc sl).dr = sl.dr := by rw [egTick_eq]
@[simp] theorem egTick_sr : (egTick g kc sl).sr = sl.sr := by rw [egTick_eq]
@[simp] theorem egTick_sl : (egTick g kc sl).sl = sl.sl := by rw [egTick_eq]
@[simp] theorem egTick_rr : (egTick g kc sl).rr = sl.rr := by rw [egTick_eq]
@[simp] theorem egTick_ssgEn : (egTick g kc sl).ssgEn = sl.ssgEn := by rw [egTick_eq]
@[simp] theorem egTick_ssgMode : (egTick g kc sl).ssgMode = sl.ssgMode := by rw [egTick_eq]
@[simp] theorem egTick_phase : (egTick g kc sl).phase = sl.phase := by rw [egTick_eq]
end

/-! ## Units that read only part of their argument -/

/-- The phase increment reads the channel's block and F-number and the slot's detune and multiple (43 R141). -/
theorem phaseInc_congr {ch ch' : Channel} {sl sl' : Slot} (hb : ch.block = ch'.block) (hf : ch.fnum = ch'.fnum)
    (hd : sl.dt = sl'.dt) (hm : sl.mul = sl'.mul) : phaseInc g ch sl = phaseInc g ch' sl' := by
  simp only [phaseInc, detunedFreq, detuneAmount, detuneSign, keyCode, hb, hf, hd, hm]

/-- An operator's output reads the slot's phase, accumulator and total level (41 R112). -/
theorem opOutput_congr {sl sl' : Slot} (hp : sl.phase = sl'.phase) (he : sl.envAcc = sl'.envAcc)
    (ht : sl.tl = sl'.tl) (m : Int) : opOutput g sl m = opOutput g sl' m := by
  simp only [opOutput, modulatedPhase, totalAtt, attenuation, hp, he, ht]

/-- The key code reads the channel's block and F-number (43 R136). -/
theorem keyCode_congr {ch ch' : Channel} (hb : ch.block = ch'.block) (hf : ch.fnum = ch'.fnum) :
    keyCode g ch = keyCode g ch' := by simp only [keyCode, hb, hf]

/-! ## Routing -/

/-- The outputs of the four operators of a channel in one tick, in natural order (42 R121, R125). -/
def opOut1 (ch : Channel) : Int := opOutput g (ch.slot.get 0) (fbMod g ch)
def opOut2 (ch : Channel) : Int := opOutput g (ch.slot.get 2) (mod2 ch.alg (opOut1 g ch))
def opOut3 (ch : Channel) : Int := opOutput g (ch.slot.get 1) (mod3 ch.alg (opOut1 g ch) (opOut2 g ch))
def opOut4 (ch : Channel) : Int :=
  opOutput g (ch.slot.get 3) (mod4 ch.alg (opOut1 g ch) (opOut2 g ch) (opOut3 g ch))

/-- The phase advance reads the channel's block and F-number. -/
theorem advancePhase_congr {ch ch' : Channel} (hb : ch.block = ch'.block) (hf : ch.fnum = ch'.fnum) :
    advancePhase g ch = advancePhase g ch' := by
  funext sl
  simp only [advancePhase, phaseInc_congr g hb hf (rfl : sl.dt = sl.dt) (rfl : sl.mul = sl.mul)]

/-- The channel sample in closed form. -/
theorem route_sample (ch : Channel) :
    (route g ch).2 = carrierSum ch.alg (opOut1 g ch) (opOut2 g ch) (opOut3 g ch) (opOut4 g ch) := by
  simp [route, opGen, slotOfOp, Channel.modifySlot_slot, opOut1, opOut2, opOut3, opOut4]

/-- Changing the four slots one after the other, in natural operator order, changes them all. -/
theorem modifySlot_all (ch : Channel) (f : Slot → Slot) (o1 : Int) :
    ((((pushHistory (ch.modifySlot 0 f) o1).modifySlot 2 f).modifySlot 1 f).modifySlot 3 f) =
      { ch with slot := ch.slot.map f, fbHist0 := toSample o1, fbHist1 := ch.fbHist0 } := by
  obtain ⟨⟨s0, s1, s2, s3⟩, _⟩ := ch
  simp [Channel.modifySlot, pushHistory, Bank4.get, Bank4.set, Bank4.map]

/-- The channel after routing in closed form: every phase advanced, the history shifted, nothing else. -/
theorem route_channel (ch : Channel) :
    (route g ch).1 =
      { ch with
        slot := ch.slot.map (advancePhase g ch)
        fbHist0 := toSample (opOut1 g ch)
        fbHist1 := ch.fbHist0 } := by
  simp only [route, opGen, slotOfOp, opOut1]
  generalize fbMod g ch = m
  generalize hA : (ch.modifySlot 0 (advancePhase g ch)) = A
  generalize hB : (pushHistory A (opOutput g (ch.slot.get 0) m)) = B
  have hAb : A.block = ch.block := by rw [← hA]; rfl
  have hAf : A.fnum = ch.fnum := by rw [← hA]; rfl
  have hBb : B.block = ch.block := by rw [← hB, ← hAb]; rfl
  have hBf : B.fnum = ch.fnum := by rw [← hB, ← hAf]; rfl
  rw [advancePhase_congr g (ch := B) hBb hBf]
  generalize hC : (B.modifySlot 2 (advancePhase g ch)) = C
  have hCb : C.block = ch.block := by rw [← hC, ← hBb]; rfl
  have hCf : C.fnum = ch.fnum := by rw [← hC, ← hBf]; rfl
  rw [advancePhase_congr g (ch := C) hCb hCf]
  generalize hD : (C.modifySlot 1 (advancePhase g ch)) = D
  have hDb : D.block = ch.block := by rw [← hD, ← hCb]; rfl
  have hDf : D.fnum = ch.fnum := by rw [← hD, ← hCf]; rfl
  rw [advancePhase_congr g (ch := D) hDb hDf, ← hD, ← hC, ← hB, ← hA, modifySlot_all]

section
variable (ch : Channel)
@[simp] theorem tickChannel_alg : (tickChannel g ch).1.alg = ch.alg := by simp [tickChannel, route_channel]
@[simp] theorem tickChannel_fb : (tickChannel g ch).1.fb = ch.fb := by simp [tickChannel, route_channel]
@[simp] theorem tickChannel_block : (tickChannel g ch).1.block = ch.block := by simp [tickChannel, route_channel]
@[simp] theorem tickChannel_fnum : (tickChannel g ch).1.fnum = ch.fnum := by simp [tickChannel, route_channel]
@[simp] theorem tickChannel_panL : (tickChannel g ch).1.panL = ch.panL := by simp [tickChannel, route_channel]
@[simp] theorem tickChannel_panR : (tickChannel g ch).1.panR = ch.panR := by simp [tickChannel, route_channel]
@[simp] theorem tickChannel_ams : (tickChannel g ch).1.ams = ch.ams := by simp [tickChannel, route_channel]
@[simp] theorem tickChannel_fms : (tickChannel g ch).1.fms = ch.fms := by simp [tickChannel, route_channel]
@[simp] theorem tickChannel_fbHist0 : (tickChannel g ch).1.fbHist0 = toSample (opOut1 g (egTickChannel g ch)) := by
  simp [tickChannel, route_channel]
@[simp] theorem tickChannel_fbHist1 : (tickChannel g ch).1.fbHist1 = ch.fbHist0 := by
  simp [tickChannel, route_channel]

/-- Every slot after a tick of its channel: the envelope ticked, the phase advanced. -/
theorem tickChannel_slot (k : SlotIx) :
    (tickChannel g ch).1.slot.get k = advancePhase g ch (egTick g (keyCode g ch) (ch.slot.get k)) := by
  simp only [tickChannel, route_channel, egTickChannel_slot, Bank4.get_map]
  simp only [advancePhase]
  rw [phaseInc_congr g (ch := egTickChannel g ch) (ch' := ch) rfl rfl rfl rfl]

theorem tickChannel_sample :
    (tickChannel g ch).2 =
      carrierSum ch.alg (opOut1 g (egTickChannel g ch)) (opOut2 g (egTickChannel g ch))
        (opOut3 g (egTickChannel g ch)) (opOut4 g (egTickChannel g ch)) := by
  rw [tickChannel, route_sample, egTickChannel_alg]
end

/-! ## The block -/

section
variable (chip : Chip)
@[simp] theorem tickChip_ch (c : Chan) : (tickChip g chip).1.ch.get c = (tickChannel g (chip.ch.get c)).1 := by
  simp [tickChip]
@[simp] theorem tickChip_addrLatch : (tickChip g chip).1.addrLatch = chip.addrLatch := rfl
@[simp] theorem tickChip_fnumLatch : (tickChip g chip).1.fnumLatch = chip.fnumLatch := rfl
@[simp] theorem tickChip_lfoEnable : (tickChip g chip).1.lfoEnable = chip.lfoEnable := rfl
@[simp] theorem tickChip_lfoFreq : (tickChip g chip).1.lfoFreq = chip.lfoFreq := rfl
@[simp] theorem tickChip_rs : (tickChip g chip).1.rs = chip.rs := rfl
end

/-- Some slot has its SSG-EG enable set, slot by slot. -/
theorem Chip.anySsg_eq_true (chip : Chip) :
    chip.anySsg = true ↔ ∃ c k, ((chip.ch.get c).slot.get k).ssgEn = true := by
  simp [Chip.anySsg, Bank6.any_eq_true, Bank4.any_eq_true]

/-- A tick is the tick of the block, or a refusal by one of the two policies (45 R191). -/
theorem tick_cases (chip : Chip) :
    (tick g chip = .ok (tickChip g chip) ∧ admission g chip = none) ∨
    (tick g chip = .error .lfoNotInSource ∧ chip.lfoEnable = true ∧ g.lfoPolicy = .refuse) ∨
    (tick g chip = .error .ssgNotInSource ∧ chip.anySsg = true ∧ g.ssgPolicy = .refuse) := by
  unfold tick admission
  split_ifs <;> simp_all

/-- A tick leaves what admission reads as it was. -/
theorem admission_tickChip (chip : Chip) : admission g (tickChip g chip).1 = admission g chip := by
  have : (tickChip g chip).1.anySsg = chip.anySsg := by
    rw [Bool.eq_iff_iff, Chip.anySsg_eq_true, Chip.anySsg_eq_true]
    simp [tickChannel_slot, advancePhase]
  simp [admission, this]

/-- Admission does not read the resampler. -/
theorem admission_rs (chip : Chip) (rs : Resampler) : admission g { chip with rs := rs } = admission g chip := rfl

/-- One admitted round of the resampler's loop (46 R202). -/
def pullOne (chip : Chip) : Chip :=
  { (tickChip g chip).1 with rs := chip.rs.shift g (tickChip g chip).2 }

theorem pull_zero (chip : Chip) : pull g 0 chip = .ok chip := rfl

theorem pull_succ (n : Nat) (chip : Chip) (h : admission g chip = none) :
    pull g (n + 1) chip = pull g n (pullOne g chip) := by
  simp [pull, tick, h, pullOne]

theorem pull_refused (n : Nat) (chip : Chip) (r : Refusal) (h : admission g chip = some r) :
    pull g (n + 1) chip = .error r := by
  simp [pull, tick, h]

theorem admission_pullOne (chip : Chip) : admission g (pullOne g chip) = admission g chip := by
  unfold pullOne
  rw [admission_rs, admission_tickChip]

/-- The loop's rounds, once admitted, are that many ticks into the resampler. -/
theorem pull_admitted (n : Nat) (chip : Chip) (h : admission g chip = none) :
    pull g n chip = .ok ((pullOne g)^[n] chip) := by
  induction n generalizing chip with
  | zero => rfl
  | succ n ih => rw [pull_succ g n chip h, ih _ (by rw [admission_pullOne, h])]; rfl

/-- What every round of the loop keeps, the loop keeps. -/
theorem pull_invariant (P : Chip → Prop) (hP : ∀ chip, P chip → P (pullOne g chip)) (n : Nat) {chip chip' : Chip}
    (h : pull g n chip = .ok chip') (h0 : P chip) : P chip' := by
  induction n generalizing chip with
  | zero => rw [pull_zero] at h; cases h; exact h0
  | succ n ih =>
    cases ha : admission g chip with
    | none => rw [pull_succ g n chip ha] at h; exact ih h (hP _ h0)
    | some r => rw [pull_refused g n chip r ha] at h; cases h

/-- `HOUT` completes exactly when its loop does. -/
theorem hout_ok {ratio : Nat} {chip chip' : Chip} {y : Pair} :
    hout g ratio chip = .ok (chip', y) ↔
      ∃ u, pull g (ticksDue g chip) chip = .ok u ∧ chip' = { u with rs := u.rs.advance ratio } ∧ y = u.rs.output g := by
  unfold hout
  cases pull g (ticksDue g chip) chip <;> simp [eq_comm]

end Sys2Proof.Machine
end

