-- ==== Sys2Proof/Laws/Exec.lean ====
section
/-!
SUPPORT. What an operation can answer with a next state, said once for each instruction, and the two facts every
whole-machine statement starts from: a data write is the write it decodes into, and no operation touches the requests
still presented.
-/

namespace Sys2Proof.Machine

/-- The machine's operations are the operations at its own configuration (10_state R22). -/
theorem exec_eq_perform (i : Instr) (s : State) : exec i s = perform cfg i s := by cases i <;> rfl

/-- The machine's step is the step at its own configuration. -/
theorem step_eq_stepWith (s : State) : step s = stepWith cfg s := by
  unfold step stepWith
  cases s.fetch with
  | none => rfl
  | some i => simp only [exec_eq_perform]

/-- A data write performs exactly the register write it decodes into (44 R151, R152). -/
theorem exec_dw_eq (part : Part) (v : Byte) (s : State) (h : s.live = true) :
    exec (.dw part v) s = exec (decodeReg part (s.chip.addrLatch.get part) v) s := by
  have hw := decodeReg_isRegWrite part (s.chip.addrLatch.get part) v
  simp only [exec, execDw, performDw, whenLive_live h, regWrite, decodeRegWord_mk]
  cases hd : decodeReg part (s.chip.addrLatch.get part) v <;> simp_all [Instr.isRegWrite, execWrKey]

/-- A tick's next state (45 R190). -/
theorem exec_tick_next {s t : State} :
    exec .tick s = .next t ↔ s.live = true ∧ admission cfg s.chip = none ∧
      t = { s with chip := (tickChip cfg s.chip).1, outputs := s.outputs ++ [(tickChip cfg s.chip).2] } := by
  simp only [exec, execTick, performTick, whenLive_next, answer_next, tick]
  cases admission cfg s.chip with
  | none =>
    constructor
    · rintro ⟨hl, chip, y, h, rfl⟩
      cases h
      exact ⟨hl, rfl, rfl⟩
    · rintro ⟨hl, -, rfl⟩
      exact ⟨hl, _, _, rfl, rfl⟩
  | some r => simp

/-- A host sample's next state (46 R202). -/
theorem exec_hout_next {ratio : Ratio} {s t : State} :
    exec (.hout ratio) s = .next t ↔ s.live = true ∧
      ∃ u, pull cfg (ticksDue cfg s.chip) s.chip = .ok u ∧
        t = { s with chip := { u with rs := u.rs.advance ratio.toNat }, outputs := s.outputs ++ [u.rs.output cfg] } := by
  simp only [exec, execHout, performHout, whenLive_next, answer_next, hout_ok]
  constructor
  · rintro ⟨hl, _, _, ⟨u, hu, rfl, rfl⟩, rfl⟩; exact ⟨hl, u, hu, rfl⟩
  · rintro ⟨hl, u, hu, rfl⟩; exact ⟨hl, _, _, ⟨u, hu, rfl, rfl⟩, rfl⟩

/-- A register write changes the block state alone: what lies outside the block, and that a reset has been performed,
stay as they were. -/
theorem exec_regWrite_outside {i : Instr} (hi : i.isRegWrite = true) {s t : State} (h : exec i s = .next t) :
    s.live = true ∧ ∃ chip, t = s.withChip chip := by
  cases i <;> simp [Instr.isRegWrite] at hi <;>
    simp only [exec, execWrLfo, execWrKey, performKey, execWrDtmul, execWrTl, execWrKsar, execWrAmdr, execWrSr, execWrSlrr,
      execWrSsgeg, execWrFnhi, execWrFnlo, execWrFbalg, execWrPansens, execWrIgnored, writeSlot_next,
      writeChannel_next, writeChip_next] at h <;>
    exact ⟨h.1, _, h.2⟩

/-- No operation touches the requests still presented. -/
theorem exec_inputs {i : Instr} {s t : State} (h : exec i s = .next t) : t.inputs = s.inputs := by
  have aux : ∀ i : Instr, i.isRegWrite = true → exec i s = .next t → t.inputs = s.inputs := by
    intro i hi h
    obtain ⟨_, chip, rfl⟩ := exec_regWrite_outside hi h
    rfl
  cases i with
  | aw part v => simp only [exec, execAw, writeChip_next] at h; rw [h.2]; rfl
  | dw part v =>
    have hl : s.live = true := by simp only [exec, execDw, performDw, whenLive_next] at h; exact h.1
    rw [exec_dw_eq part v s hl] at h
    exact aux _ (decodeReg_isRegWrite _ _ _) h
  | tick => rw [exec_tick_next] at h; rw [h.2.2]
  | hout ratio => rw [exec_hout_next] at h; obtain ⟨_, u, _, rfl⟩ := h; rfl
  | reset => simp only [exec, execReset, performReset, Host.Outcome.next.injEq] at h; rw [← h]
  | kill => simp only [exec, execKill, performKill, writeChip_next] at h; rw [h.2]; rfl
  | _ => exact aux _ rfl h

end Sys2Proof.Machine
end

