-- ==== Sys2Proof/Laws/Key.lean ====
section
/-!
SUPPORT. What the four events of a key write (44 R156) do: one event to each slot of the channel addressed, nothing
anywhere else.
-/

namespace Sys2Proof.Machine

@[simp] theorem slotOfOp_opOfSlot (k : SlotIx) : slotOfOp (opOfSlot k) = k := by fin_cases k <;> rfl

theorem opOfSlot_slotOfOp (op : Op) : opOfSlot (slotOfOp op) = op := by cases op <;> rfl

/-- The event a key write delivers to a slot, by the mask bit of the slot's operator. -/
def keySlot (g : Cfg) (v : Byte) (k : SlotIx) (sl : Slot) : Slot := if keyBit v (opOfSlot k) then keyOn g sl else keyOff sl

/-- The four events reach the four slots of the channel, one each, and no slot of another channel. -/
theorem keyEvents_slot (g : Cfg) (c d : Chan) (v : Byte) (chip : Chip) (k : SlotIx) :
    ((keyEvents g c v chip).ch.get d).slot.get k =
      if d = c then keySlot g v k ((chip.ch.get d).slot.get k) else (chip.ch.get d).slot.get k := by
  by_cases h : d = c
  · subst h
    fin_cases k <;> simp [keyEvents, keyEvent, Chip.modifySlot_slot, slotOfOp, keySlot, opOfSlot] <;> rfl
  · simp [keyEvents, keyEvent, Chip.modifySlot_slot, h]

/-- A channel that is not addressed is left as it was. -/
theorem keyEvents_channel_ne (g : Cfg) {c d : Chan} (h : d ≠ c) (v : Byte) (chip : Chip) :
    (keyEvents g c v chip).ch.get d = chip.ch.get d := by
  simp [keyEvents, keyEvent, Chip.modifySlot, Chip.modifyChannel_ch, h]

/-- Key events write slots only: the registers of a channel stay. -/
theorem keyEvents_channel (g : Cfg) (c : Chan) (v : Byte) (chip : Chip) :
    (keyEvents g c v chip).ch.get c =
      { chip.ch.get c with slot := ((keyEvents g c v chip).ch.get c).slot } := by
  simp [keyEvents, keyEvent, Chip.modifySlot, Channel.modifySlot]

section
variable (g : Cfg) (c : Chan) (v : Byte) (chip : Chip)
@[simp] theorem keyEvents_addrLatch : (keyEvents g c v chip).addrLatch = chip.addrLatch := rfl
@[simp] theorem keyEvents_fnumLatch : (keyEvents g c v chip).fnumLatch = chip.fnumLatch := rfl
@[simp] theorem keyEvents_lfoEnable : (keyEvents g c v chip).lfoEnable = chip.lfoEnable := rfl
@[simp] theorem keyEvents_lfoFreq : (keyEvents g c v chip).lfoFreq = chip.lfoFreq := rfl
@[simp] theorem keyEvents_rs : (keyEvents g c v chip).rs = chip.rs := rfl
end

/-- A key-on acts on an un-keyed slot only (40 R92). -/
theorem keyOn_keyed (g : Cfg) {sl : Slot} (h : sl.egState.keyed = true) : keyOn g sl = sl := by simp [keyOn, h]

theorem keyOn_unkeyed (g : Cfg) {sl : Slot} (h : sl.egState.keyed = false) :
    keyOn g sl = { sl with egState := .attack, envAcc := g.envTop, phase := 0 } := by simp [keyOn, h]

/-- A key-off acts on a keyed slot only (40 R93). -/
theorem keyOff_keyed {sl : Slot} (h : sl.egState.keyed = true) : keyOff sl = { sl with egState := .release } := by
  simp [keyOff, h]

theorem keyOff_unkeyed {sl : Slot} (h : sl.egState.keyed = false) : keyOff sl = sl := by simp [keyOff, h]

/-- A slot is un-keyed exactly in Release and Off (40 R81). -/
theorem EgState.keyed_eq_false (e : EgState) : e.keyed = false ↔ e = .release ∨ e = .off := by
  cases e <;> simp [EgState.keyed]

end Sys2Proof.Machine
end

