-- ==== Sys2Proof/Laws/PerInstr.lean ====
section
/-!
SUPPORT. Families of statements made instruction by instruction. `Format`: the encoder uses the format that the
opcode table gives the instruction, a register-write word for format W and a request for formats B and S.
-/

namespace Sys2Proof.Laws.Format

/-- The word of an instruction has the instruction's format. -/
def Statement (i : Instr) : Prop := i.isRegWrite = true ↔ ∃ w, encode i = .regWord w

theorem aw (part : Part) (value : Byte) : Statement (.aw part value) := by simp [Statement, Instr.isRegWrite, encode]
theorem dw (part : Part) (value : Byte) : Statement (.dw part value) := by simp [Statement, Instr.isRegWrite, encode]
theorem wrLfo (value : Byte) : Statement (.wrLfo value) := by simp [Statement, Instr.isRegWrite, encode]
theorem wrKey (value : Byte) : Statement (.wrKey value) := by simp [Statement, Instr.isRegWrite, encode]
theorem wrDtmul (part : Part) (slot : SlotIx) (n : PartChan) (value : Byte) :
    Statement (.wrDtmul part slot n value) := by simp [Statement, Instr.isRegWrite, encode]
theorem wrTl (part : Part) (slot : SlotIx) (n : PartChan) (value : Byte) :
    Statement (.wrTl part slot n value) := by simp [Statement, Instr.isRegWrite, encode]
theorem wrKsar (part : Part) (slot : SlotIx) (n : PartChan) (value : Byte) :
    Statement (.wrKsar part slot n value) := by simp [Statement, Instr.isRegWrite, encode]
theorem wrAmdr (part : Part) (slot : SlotIx) (n : PartChan) (value : Byte) :
    Statement (.wrAmdr part slot n value) := by simp [Statement, Instr.isRegWrite, encode]
theorem wrSr (part : Part) (slot : SlotIx) (n : PartChan) (value : Byte) :
    Statement (.wrSr part slot n value) := by simp [Statement, Instr.isRegWrite, encode]
theorem wrSlrr (part : Part) (slot : SlotIx) (n : PartChan) (value : Byte) :
    Statement (.wrSlrr part slot n value) := by simp [Statement, Instr.isRegWrite, encode]
theorem wrSsgeg (part : Part) (slot : SlotIx) (n : PartChan) (value : Byte) :
    Statement (.wrSsgeg part slot n value) := by simp [Statement, Instr.isRegWrite, encode]
theorem wrFnlo (part : Part) (n : PartChan) (value : Byte) : Statement (.wrFnlo part n value) := by
  simp [Statement, Instr.isRegWrite, encode]
theorem wrFnhi (part : Part) (n : PartChan) (value : Byte) : Statement (.wrFnhi part n value) := by
  simp [Statement, Instr.isRegWrite, encode]
theorem wrFbalg (part : Part) (n : PartChan) (value : Byte) : Statement (.wrFbalg part n value) := by
  simp [Statement, Instr.isRegWrite, encode]
theorem wrPansens (part : Part) (n : PartChan) (value : Byte) : Statement (.wrPansens part n value) := by
  simp [Statement, Instr.isRegWrite, encode]
theorem wrIgnored (part : Part) (reg value : Byte) : Statement (.wrIgnored part reg value) := by
  simp [Statement, Instr.isRegWrite, encode]
theorem tick : Statement .tick := by simp [Statement, Instr.isRegWrite, encode]
theorem hout (ratio : Ratio) : Statement (.hout ratio) := by simp [Statement, Instr.isRegWrite, encode]
theorem reset : Statement .reset := by simp [Statement, Instr.isRegWrite, encode]
theorem kill : Statement .kill := by simp [Statement, Instr.isRegWrite, encode]

end Sys2Proof.Laws.Format
end

