-- ==== Sys2Proof/Laws/Resampler.lean ====
section
/-!
SUPPORT. The resampler's arithmetic in the integers: interpolation never wraps, and the loop of rounds lowers the
position by 1.0 each.
-/

namespace Sys2Proof.Machine

variable (g : Cfg) (chip : Chip)

@[simp] theorem pullOne_ch (c : Chan) : (pullOne g chip).ch.get c = (tickChannel g (chip.ch.get c)).1 := by
  simp [pullOne]
@[simp] theorem pullOne_addrLatch : (pullOne g chip).addrLatch = chip.addrLatch := rfl
@[simp] theorem pullOne_fnumLatch : (pullOne g chip).fnumLatch = chip.fnumLatch := rfl
@[simp] theorem pullOne_lfoEnable : (pullOne g chip).lfoEnable = chip.lfoEnable := rfl
@[simp] theorem pullOne_lfoFreq : (pullOne g chip).lfoFreq = chip.lfoFreq := rfl
@[simp] theorem pullOne_rs : (pullOne g chip).rs = chip.rs.shift g (tickChip g chip).2 := rfl

/-- Lowering is subtraction, and a round taken while the position is at least 1.0 lowers it by exactly 1.0. -/
theorem lowerPos_eq (pos : Nat) : lowerPos g pos = pos - g.one := by unfold lowerPos; omega

/-- The position after `n` rounds. -/
theorem pullOne_iterate_pos (n : Nat) : ((pullOne g)^[n] chip).rs.pos = chip.rs.pos - n * g.one := by
  induction n generalizing chip with
  | zero => simp
  | succ n ih =>
    rw [Function.iterate_succ_apply, ih, pullOne_rs, Resampler.shift_pos, lowerPos_eq, Nat.succ_mul]
    omega

/-- After the rounds that are due, the position is the fraction that was left (46 R202, R203). -/
theorem pullOne_due_pos : ((pullOne g)^[ticksDue g chip] chip).rs.pos = chip.rs.pos % g.one := by
  rw [pullOne_iterate_pos, ticksDue, Nat.mod_eq_sub_div_mul]

/-- The sample of a value that fits 16 bits is that value. -/
theorem toSample_toInt {v : Int} (h0 : -32768 ≤ v) (h1 : v ≤ 32767) : (toSample v).toInt = v := by
  rw [toSample, BitVec.toInt_ofInt_eq_self] <;> omega

/-- Truncated division of a difference by 1.0 stays between 0 and the difference. -/
theorem tdiv_fraction_between (d : Int) (f : Nat) (h : f < g.one) :
    min 0 d ≤ tdiv (d * f) g.one ∧ tdiv (d * f) g.one ≤ max 0 d := by
  have hone : (0 : Int) < (g.one : Nat) := by exact_mod_cast resampler_one_pos g
  have hf : (f : Int) ≤ (g.one : Nat) := by exact_mod_cast h.le
  unfold tdiv
  rcases le_total 0 d with hd | hd
  · rw [min_eq_left hd, max_eq_right hd]
    have h0 : 0 ≤ d * f := by positivity
    refine ⟨Int.tdiv_nonneg h0 hone.le, ?_⟩
    rw [Int.tdiv_eq_ediv_of_nonneg h0]
    exact Int.ediv_le_of_le_mul hone (mul_le_mul_of_nonneg_left hf hd)
  · rw [min_eq_right hd, max_eq_left hd]
    have h0 : 0 ≤ -d * f := mul_nonneg (by omega) (by positivity)
    have e : Int.tdiv (d * f) g.one = -Int.tdiv (-d * f) g.one := by rw [neg_mul, Int.neg_tdiv, neg_neg]
    have h1 := Int.tdiv_nonneg h0 hone.le
    have h2 : Int.tdiv (-d * f) g.one ≤ -d := by
      rw [Int.tdiv_eq_ediv_of_nonneg h0]
      exact Int.ediv_le_of_le_mul hone (mul_le_mul_of_nonneg_left hf (by omega))
    rw [e]
    omega

/-- Interpolation in the integers: the 16-bit result never wraps (46 R202). -/
theorem interpolate_toInt (prev cur : Sample) (f : Nat) (h : f < g.one) :
    (interpolate g prev cur f).toInt = prev.toInt + tdiv ((cur.toInt - prev.toInt) * f) g.one := by
  have hb := tdiv_fraction_between g (cur.toInt - prev.toInt) f h
  have := prev.toInt_lt; have := prev.le_toInt; have := cur.toInt_lt; have := cur.le_toInt
  unfold interpolate
  apply toSample_toInt <;> omega

end Sys2Proof.Machine
end

