-- ==== Sys2Proof/Laws/Safety.lean ====
section
/-!
SUPPORT. The fields of a slot, a channel and the block with some registers cleared: those that nothing reads
(`visible`), and the two enables without semantics (`withoutEnables`).
-/

namespace Sys2Proof.Machine

section
variable (sl : Slot)
theorem Slot.visible_eq : sl.visible = { sl with am := false, ssgMode := 0 } := rfl
theorem Slot.withoutEnables_eq : sl.withoutEnables = { sl with ssgEn := false } := rfl
@[simp] theorem Slot.withoutEnables_ssgEn : sl.withoutEnables.ssgEn = false := rfl
@[simp] theorem Slot.withoutEnables_egState : sl.withoutEnables.egState = sl.egState := rfl
@[simp] theorem Slot.withoutEnables_envAcc : sl.withoutEnables.envAcc = sl.envAcc := rfl
@[simp] theorem Slot.withoutEnables_phase : sl.withoutEnables.phase = sl.phase := rfl
@[simp] theorem Slot.withoutEnables_tl : sl.withoutEnables.tl = sl.tl := rfl
end

section
variable (ch : Channel) (k : SlotIx)
@[simp] theorem Channel.visible_slot : ch.visible.slot.get k = (ch.slot.get k).visible := by simp [Channel.visible]
@[simp] theorem Channel.withoutEnables_slot :
    ch.withoutEnables.slot.get k = (ch.slot.get k).withoutEnables := by simp [Channel.withoutEnables]
@[simp] theorem Channel.withoutEnables_alg : ch.withoutEnables.alg = ch.alg := rfl
@[simp] theorem Channel.withoutEnables_fb : ch.withoutEnables.fb = ch.fb := rfl
@[simp] theorem Channel.withoutEnables_block : ch.withoutEnables.block = ch.block := rfl
@[simp] theorem Channel.withoutEnables_fnum : ch.withoutEnables.fnum = ch.fnum := rfl
@[simp] theorem Channel.withoutEnables_panL : ch.withoutEnables.panL = ch.panL := rfl
@[simp] theorem Channel.withoutEnables_panR : ch.withoutEnables.panR = ch.panR := rfl
@[simp] theorem Channel.withoutEnables_fbHist0 : ch.withoutEnables.fbHist0 = ch.fbHist0 := rfl
@[simp] theorem Channel.withoutEnables_fbHist1 : ch.withoutEnables.fbHist1 = ch.fbHist1 := rfl
end

section
variable (chip : Chip) (c : Chan)
@[simp] theorem Chip.visible_ch : chip.visible.ch.get c = (chip.ch.get c).visible := by simp [Chip.visible]
@[simp] theorem Chip.withoutEnables_ch :
    chip.withoutEnables.ch.get c = (chip.ch.get c).withoutEnables := by simp [Chip.withoutEnables]
@[simp] theorem Chip.withoutEnables_lfoEnable : chip.withoutEnables.lfoEnable = false := rfl
@[simp] theorem Chip.withoutEnables_lfoFreq : chip.withoutEnables.lfoFreq = chip.lfoFreq := rfl
@[simp] theorem Chip.withoutEnables_addrLatch : chip.withoutEnables.addrLatch = chip.addrLatch := rfl
@[simp] theorem Chip.withoutEnables_fnumLatch : chip.withoutEnables.fnumLatch = chip.fnumLatch := rfl
@[simp] theorem Chip.withoutEnables_rs : chip.withoutEnables.rs = chip.rs := rfl
end

end Sys2Proof.Machine
end

