-- ==== Sys2Proof/Laws/Wave.lean ====
section
/-!
SUPPORT. What the shaping of the free operator function imposes on it, piece by piece: the folded phase, the bounded
magnitude, its fall with attenuation.
-/

namespace Sys2Proof.Machine

theorem quarterPhase_le (theta : BitVec 32) : quarterPhase theta ≤ 2 ^ 30 := by
  have := Nat.mod_lt theta.toNat (by decide : 0 < 2 ^ 31)
  simp only [quarterPhase]
  omega

/-- The folded phase reads the phase within its half cycle only. -/
theorem quarterPhase_congr {t u : BitVec 32} (h : t.toNat % 2 ^ 31 = u.toNat % 2 ^ 31) :
    quarterPhase t = quarterPhase u := by simp only [quarterPhase, h]

theorem waveMagnitudeOf_le_peak (raw : Nat → Nat → Nat) (peak q a : Nat) : waveMagnitudeOf raw peak q a ≤ peak := by
  induction a with
  | zero => unfold waveMagnitudeOf; split <;> omega
  | succ a ih => unfold waveMagnitudeOf; omega

/-- The magnitude never rises with attenuation. -/
theorem waveMagnitudeOf_anti (raw : Nat → Nat → Nat) (peak q : Nat) {a b : Nat} (h : a ≤ b) :
    waveMagnitudeOf raw peak q b ≤ waveMagnitudeOf raw peak q a := by
  induction h with
  | refl => exact Nat.le_refl _
  | step _ ih => exact Nat.le_trans (Nat.min_le_left _ _) ih

/-- The operator function is bounded by the peak. -/
theorem opWaveOf_bound (raw : Nat → Nat → Nat) (peak quiet : Nat) (theta : BitVec 32) (a : Nat) :
    -(peak : Int) ≤ opWaveOf raw peak quiet theta a ∧ opWaveOf raw peak quiet theta a ≤ peak := by
  have := waveMagnitudeOf_le_peak raw peak (quarterPhase theta) a
  unfold opWaveOf
  split_ifs <;> omega

/-- Above the quiet threshold, and from the inaudible attenuation on, the operator function is 0. -/
theorem opWaveOf_zero (raw : Nat → Nat → Nat) (peak quiet : Nat) (theta : BitVec 32) {a : Nat}
    (h : quiet < a ∨ inaudibleFrom ≤ a) : opWaveOf raw peak quiet theta a = 0 := by
  unfold opWaveOf
  rw [if_pos]
  omega

/-- The machine's operator function is bounded by its peak (41 R113, `OPWAVE_bound`). -/
theorem cfg_opWave_bound (theta : BitVec 32) (a : Nat) :
    -(8191 : Int) ≤ cfg.opWave theta a ∧ cfg.opWave theta a ≤ 8191 := opWaveOf_bound _ 8191 6143 theta a

/-- The machine's operator function is 0 from total attenuation 5010 on (41 R113, `OPWAVE_quiet`). -/
theorem cfg_opWave_quiet (theta : BitVec 32) {a : Nat} (h : 5010 ≤ a) : cfg.opWave theta a = 0 :=
  opWaveOf_zero _ 8191 6143 theta (.inr h)

/-- An operator's output is bounded by the peak, whatever the slot and the modulation (41 R113). -/
theorem opOutput_bound (sl : Slot) (m : Int) : -8191 ≤ opOutput cfg sl m ∧ opOutput cfg sl m ≤ 8191 :=
  cfg_opWave_bound _ _

/-- A slot at `ENV_TOP` is silent, whatever its total level, its phase and the modulation (41 R111, R113). -/
theorem opOutput_silent {sl : Slot} (h : sl.envAcc = cfg.envTop) (m : Int) : opOutput cfg sl m = 0 := by
  have ha : attenuation sl = 6144 := by rw [attenuation, h]; rfl
  refine cfg_opWave_quiet _ ?_
  have he : cfg.envMax = 6144 := rfl
  simp only [totalAtt, ha, he]
  omega

end Sys2Proof.Machine
end

