-- ==== Sys2Proof/Laws/Writes.lean ====
section
/-!
SUPPORT. A write to one slot or one channel, said once with its frame, and the channel a write reaches as a number.
-/

namespace Sys2Proof.Machine

/-- The channel that a part and a channel in part name (30_encoding R62). -/
theorem chanOf_val (p : Part) (n : PartChan) : (chanOf p n).val = 3 * (partBit p).toNat + n.val := by
  cases p <;> simp [chanOf, partBit]

theorem eq_chanOf {p : Part} {n : PartChan} {c : Chan} (h : c.val = 3 * (partBit p).toNat + n.val) :
    c = chanOf p n := Fin.ext (h.trans (chanOf_val p n).symm)

/-- A write of one slot completes, and changes that slot alone. -/
theorem writeSlot_written {s : State} (h : s.live = true) (c : Chan) (k : SlotIx) (f : Slot → Slot) :
    ∃ t, writeSlot s c k f = .next t ∧ t.SlotWritten s c k (f (s.slot c k)) := by
  refine ⟨_, by rw [writeSlot, writeChip, whenLive_live h], ?_, ?_, ?_, ?_⟩
  · simp [State.slot, State.channel, Chip.modifySlot_slot]
  · intro c' k' hn
    simp [State.slot, State.channel, Chip.modifySlot_slot, hn]
  · intro c'
    simp only [State.channel, State.withChip_chip, Chip.modifySlot, Chip.modifyChannel_ch]
    split
    · subst_vars; simp [Channel.SameRegs]
    · simp [Channel.SameRegs]
  · simp [State.SameOutside]

/-- A write of one channel completes, and changes that channel alone. -/
theorem writeChannel_written {s : State} (h : s.live = true) (c : Chan) (f : Channel → Channel) :
    ∃ t, writeChannel s c f = .next t ∧ t.ChannelWritten s c (f (s.channel c)) := by
  refine ⟨_, by rw [writeChannel, writeChip, whenLive_live h], ?_, ?_, ?_⟩
  · simp [State.channel]
  · intro c' hn
    simp [State.channel, Chip.modifyChannel_ch, hn]
  · simp [State.SameOutside]

end Sys2Proof.Machine
end

