-- ==== Sys2Proof/Tests/Slice0.lean ====
section
/-!
SUPPORT. Tests of the model: the well-formedness check, words written out from the spec's encodings, one operation on a
small state with the result printed in the spec, and for every statement that has hypotheses a concrete state and
operands that meet them.
-/

namespace Sys2Proof.Tests

open Sys2Proof.Machine
open Host.Outcome (next fault refused)

/-- What `f` reads in the next state, if there is one. -/
def seen {α : Type} (r : Result) (f : State → α) : Option α :=
  match r with
  | .next t => some (f t)
  | .fault _ => none
  | .refused _ => none

/-- The reset state with one slot changed. -/
def withSlot (c : Chan) (k : SlotIx) (f : Slot → Slot) : State := State.reset.withChip ((resetChip cfg).modifySlot c k f)

/-- The reset state with one channel changed. -/
def withChannel (c : Chan) (f : Channel → Channel) : State := State.reset.withChip ((resetChip cfg).modifyChannel c f)

/-- The reset state with another resampler. -/
def withResampler (rs : Resampler) : State := State.reset.withChip { resetChip cfg with rs := rs }

/-! ## Well-formedness -/

/-- 20_memory R48: 0x40 on part 0 holds a register, so an ignored write to it is no encoding. -/
theorem test_wf_refuses_mapped : (Instr.wrIgnored .part0 0x40 0x00).wf = false := by decide
theorem test_wf_accepts_unmapped : (Instr.wrIgnored .part0 0x43 0x00).wf = true := by decide
/-- The edges of the map: 0x22 on part 0 only, 0x2F below, 0x9E last operator register, 0xA2, 0xB6 and 0xB8. -/
theorem test_wf_map_edges :
    isMapped .part0 0x22 = true ∧ isMapped .part1 0x22 = false ∧ isMapped .part0 0x2F = false ∧
    isMapped .part0 0x30 = true ∧ isMapped .part1 0x9E = true ∧ isMapped .part1 0x9F = false ∧
    isMapped .part0 0xA2 = true ∧ isMapped .part0 0xA8 = false ∧ isMapped .part0 0xB6 = true ∧
    isMapped .part0 0xB8 = false := by decide

/-! ## Words written out from the encodings (30_encoding R61, R62, R64) -/

theorem test_decode_aw : decode (.request (.bus 0b1_1_01000000#10)) = .aw .part1 0x40 := by decide
theorem test_decode_dw : decode (.request (.bus 0b0_0_01111111#10)) = .dw .part0 0x7F := by decide
theorem test_decode_lfo : decode (.regWord 0b0_00100010_00001011#17) = .wrLfo 0x0B := by decide
theorem test_decode_key : decode (.regWord 0b0_00101000_11110110#17) = .wrKey 0xF6 := by decide
theorem test_decode_dtmul : decode (.regWord 0b0_0011_10_00_01110001#17) = .wrDtmul .part0 2 0 0x71 := by decide
theorem test_decode_tl : decode (.regWord 0b1_0100_11_01_11111111#17) = .wrTl .part1 3 1 0xFF := by decide
theorem test_decode_ksar : decode (.regWord 0b0_0101_00_00_11011111#17) = .wrKsar .part0 0 0 0xDF := by decide
theorem test_decode_amdr : decode (.regWord 0b0_0110_01_00_10001010#17) = .wrAmdr .part0 1 0 0x8A := by decide
theorem test_decode_sr : decode (.regWord 0b1_0111_00_10_00011111#17) = .wrSr .part1 0 2 0x1F := by decide
theorem test_decode_slrr : decode (.regWord 0b0_1000_00_01_00101111#17) = .wrSlrr .part0 0 1 0x2F := by decide
theorem test_decode_ssgeg : decode (.regWord 0b0_1001_11_10_00001101#17) = .wrSsgeg .part0 3 2 0x0D := by decide
theorem test_decode_fnlo : decode (.regWord 0b1_101000_01_00000000#17) = .wrFnlo .part1 1 0x00 := by decide
theorem test_decode_fnhi : decode (.regWord 0b0_101001_10_00100100#17) = .wrFnhi .part0 2 0x24 := by decide
theorem test_decode_fbalg : decode (.regWord 0b0_101100_00_00101100#17) = .wrFbalg .part0 0 0x2C := by decide
theorem test_decode_pansens : decode (.regWord 0b1_101101_00_10000000#17) = .wrPansens .part1 0 0x80 := by decide
/-- Row 3 of R64 (channel in part 3), a global register number on part 1, and the catch-all row. -/
theorem test_decode_ignored :
    decode (.regWord 0b0_0011_00_11_00010001#17) = .wrIgnored .part0 0x33 0x11 ∧
    decode (.regWord 0b1_00101000_11110000#17) = .wrIgnored .part1 0x28 0xF0 ∧
    decode (.regWord 0b0_10101000_00010010#17) = .wrIgnored .part0 0xA8 0x12 := by decide
theorem test_decode_strobes :
    decode (.request .tick) = .tick ∧ decode (.request (.hout 0x0001_8000_0000#48)) = .hout 0x0001_8000_0000#48 ∧
    decode (.request .reset) = .reset ∧ decode (.request .kill) = .kill := by decide
/-- An opcode-table word of each bit count, and a count that no format has. -/
theorem test_table_words :
    decodeTableWord 16 0x1B0 = some (.aw .part0 0xB0) ∧ decodeTableWord 24 0x0487F = some (.wrTl .part0 2 0 0x7F) ∧
    decodeTableWord 48 (2 ^ 33) = some (.hout (BitVec.ofNat 48 (2 ^ 33))) ∧ decodeTableWord 0 0 = none := by decide

/-! ## One operation each -/

/-- 44 R150, example. -/
theorem test_aw :
    seen (exec (.aw .part1 0x40) State.reset) (fun t => (t.chip.addrLatch.b0, t.chip.addrLatch.b1)) =
      some (0x00, 0x40) := by decide
/-- 44 R151, example: after `AW 0, 0x40` the data write of 0x7F is `WR_TL` on channel 0, slot 0. -/
theorem test_dw :
    seen (exec (.dw .part0 0x7F) (State.reset.withChip { resetChip cfg with addrLatch := ⟨0x40, 0x28⟩ }))
      (fun t => ((t.slot 0 0).tl, t.chip.addrLatch.b0)) = some (0x7F, 0x40) := by decide
/-- 44 R155, example. -/
theorem test_wrLfo :
    seen (exec (.wrLfo 0x0B) State.reset) (fun t => (t.chip.lfoEnable, t.chip.lfoFreq)) = some (true, 3) := by decide
/-- 44 R156, example: 0x35 keys on operators 1 and 2 (slots 0 and 2) and keys off operators 3 and 4 of channel 4. -/
theorem test_wrKey :
    seen (exec (.wrKey 0x35) (withSlot 4 1 fun sl => { sl with egState := .sustain, envAcc := 7 }))
      (fun t => [(t.slot 4 0).egState, (t.slot 4 1).egState, (t.slot 4 2).egState, (t.slot 4 3).egState]) =
      some [.attack, .release, .attack, .off] := by decide
/-- 40 R92 example: key-on from Off restarts the phase and starts from silence. -/
theorem test_wrKey_restarts :
    seen (exec (.wrKey 0x10) (withSlot 0 0 fun sl => { sl with phase := 0x12345678 }))
      (fun t => ((t.slot 0 0).phase, (t.slot 0 0).envAcc)) = some (0, 0x18000000) := by decide
/-- 44 R157, example. -/
theorem test_wrDtmul :
    seen (exec (.wrDtmul .part0 2 0 0x71) State.reset) (fun t => ((t.slot 0 2).dt, (t.slot 0 2).mul)) =
      some (7, 1) := by decide
/-- 20 R53: the very next tick uses the written `mul`, in the phase it leaves (block 4, F-number 0x400; the increments of
95_test_vectors Program 1: 0x0100_0000 at `mul` 0, 0x0200_0000 at `mul` 1). -/
theorem test_dtmul_next_tick :
    let ch : Channel := { resetChannel cfg with block := 4, fnum := 0x400 }
    let s : State := State.reset.withChip { resetChip cfg with ch := (resetChip cfg).ch.set 0 ch }
    seen (exec .tick s) (fun t => (t.slot 0 0).phase) = some 0x01000000 ∧
    seen (exec .tick (match exec (.wrDtmul .part0 0 0 0x01) s with | .next t => t | _ => s))
      (fun t => (t.slot 0 0).phase) = some 0x02000000 := by decide
/-- 44 R158, example: part 1, slot index 3, `n = 1` is channel 4. -/
theorem test_wrTl :
    seen (exec (.wrTl .part1 3 1 0xFF) State.reset) (fun t => ((t.slot 4 3).tl, (t.slot 3 3).tl)) =
      some (127, 0) := by decide
/-- 44 R159, example. -/
theorem test_wrKsar :
    seen (exec (.wrKsar .part0 0 0 0xDF) State.reset) (fun t => ((t.slot 0 0).ks, (t.slot 0 0).ar)) =
      some (3, 31) := by decide
/-- 44 R160, example. -/
theorem test_wrAmdr :
    seen (exec (.wrAmdr .part0 1 0 0x8A) State.reset) (fun t => ((t.slot 0 1).am, (t.slot 0 1).dr)) =
      some (true, 10) := by decide
/-- 44 R161, example: bits 7..5 are ignored. -/
theorem test_wrSr :
    seen (exec (.wrSr .part0 0 0 0xE0) (withSlot 0 0 fun sl => { sl with sr := 31 })) (fun t => (t.slot 0 0).sr) =
      some 0 := by decide
/-- 44 R162, example. -/
theorem test_wrSlrr :
    seen (exec (.wrSlrr .part0 0 0 0x2F) State.reset) (fun t => ((t.slot 0 0).sl, (t.slot 0 0).rr)) =
      some (2, 15) := by decide
/-- 44 R163, example. -/
theorem test_wrSsgeg :
    seen (exec (.wrSsgeg .part0 0 0 0x0D) State.reset) (fun t => ((t.slot 0 0).ssgEn, (t.slot 0 0).ssgMode)) =
      some (true, 5) := by decide
/-- 44 R164, example. -/
theorem test_wrFnhi :
    seen (exec (.wrFnhi .part0 0 0x24) State.reset) (fun t => (t.chip.fnumLatch, (t.channel 0).block)) =
      some (0x24, 0) := by decide
/-- 44 R165, example: the shared latch, used by a write on the other part too. -/
theorem test_wrFnlo :
    seen (exec (.wrFnlo .part0 0 0x3B) (State.reset.withChip { resetChip cfg with fnumLatch := 0x24 }))
      (fun t => ((t.channel 0).block, (t.channel 0).fnum)) = some (4, 0x43B) ∧
    seen (exec (.wrFnlo .part1 1 0x00) (State.reset.withChip { resetChip cfg with fnumLatch := 0x24 }))
      (fun t => ((t.channel 4).block, (t.channel 4).fnum)) = some (4, 0x400) := by decide
/-- 44 R166, example. -/
theorem test_wrFbalg :
    seen (exec (.wrFbalg .part0 0 0x2C) State.reset) (fun t => ((t.channel 0).fb, (t.channel 0).alg)) =
      some (5, 4) := by decide
/-- 44 R167, example: 0x80 is left only. -/
theorem test_wrPansens :
    seen (exec (.wrPansens .part0 0 0x80) State.reset) (fun t => ((t.channel 0).panL, (t.channel 0).panR)) =
      some (true, false) := by decide
/-- 44 R154, example. -/
theorem test_wrIgnored : exec (.wrIgnored .part1 0xFF 0xFF) State.reset = .next State.reset := rfl
/-- 95 V2.2, E1 tick 1: attack at the highest rate, block 4, F-number 0x400. -/
theorem test_tick_attack :
    seen (exec .tick (withSlot 0 0 fun sl => { sl with ar := 31, egState := .attack }))
      (fun t => ((t.slot 0 0).egState, (t.slot 0 0).envAcc)) = some (.attack, 0x15000000) := by decide
/-- 40 R99, example: a release step that reaches silence. -/
theorem test_tick_release :
    seen (exec .tick (withSlot 5 3 fun sl => { sl with rr := 15, egState := .release, envAcc := 0x17FF0000 }))
      (fun t => ((t.slot 5 3).egState, (t.slot 5 3).envAcc)) = some (.off, 0x18000000) := by decide
/-- 46 R202, example of the interpolation: previous 5, current 10, a quarter between them. -/
theorem test_hout :
    seen (exec (.hout 0x0001_0000_0000) (withResampler { pos := 0x4000_0000, prev := ⟨5, 10⟩, cur := ⟨10, 5⟩ }))
      (fun t => (t.outputs, t.chip.rs.pos)) = some ([⟨6, 9⟩], 0x1_4000_0000) := by decide
/-- 46 R202, examples of the interpolation at its edges. -/
theorem test_interpolate :
    interpolate cfg (BitVec.ofInt 16 (-10)) (BitVec.ofInt 16 (-5)) 0x40000000 = BitVec.ofInt 16 (-9) ∧
    interpolate cfg (BitVec.ofInt 16 (-32768)) 32767 0xFFFFFFFF = 32766 ∧ interpolate cfg 123 456 0 = 123 := by decide
/-- 00_scope R4: under 16 fraction bits the same word of the ratio and 1.0 in the position mean something else. -/
theorem test_hout_other_format :
    seen (performHout { cfg with rsFrac := 16, rsInt := 32 } 0x10000
        (withResampler { pos := 0x8000, prev := ⟨0, 0⟩, cur := ⟨10, 20⟩ }))
      (fun t => (t.outputs, t.chip.rs.pos)) = some ([⟨5, 10⟩], 0x18000) := by decide
/-- 47 R210 from the power-up state. -/
theorem test_reset :
    seen (exec .reset { withSlot 2 1 (fun sl => { sl with tl := 5, envAcc := 1 }) with live := false })
      (fun t => (t.live, t.slot 2 1)) = some (true, resetSlot cfg) := by decide
/-- 47 R212, example. -/
theorem test_kill :
    seen (exec .kill (withSlot 0 0 fun sl => { sl with egState := .sustain, envAcc := 0x01234567, tl := 9 }))
      (fun t => ((t.slot 0 0).egState, (t.slot 0 0).envAcc, (t.slot 0 0).tl)) = some (.off, 0x18000000, 9) := by
  decide
/-- 40 R99's pseudocode at its corner: Release at `ENV_TOP` with `rr = 0` goes to Off (log entry 17). -/
theorem test_release_at_top :
    (egTick cfg 0 { resetSlot cfg with egState := .release }).egState = .off := by decide
/-- 70_reset R240: before the first reset an operation is a fault. -/
theorem test_before_reset : exec .kill { State.reset with live := false } = .fault .beforeReset := rfl

/-! ## The units, against printed values -/

/-- 95 V2.1. -/
theorem test_egInc :
    egInc cfg 0 3 31 = 0 ∧ egInc cfg 1 0 0 = 0x600 ∧ egInc cfg 5 2 31 = 0x18000 ∧ egInc cfg 16 3 18 = 0x600000 ∧
    egInc cfg 31 3 31 = 0x3000000 := by decide
/-- 40 R96 and 95 V2.2, E9: the minimum step and the change to Decay. -/
theorem test_egAttack :
    (egTick cfg 0 { resetSlot cfg with ar := 1, egState := .attack, envAcc := 0x18000 }).envAcc = 0x17FFF ∧
    (egTick cfg 0 { resetSlot cfg with ar := 1, egState := .attack, envAcc := 0x10000 }).egState = .decay := by decide
/-- 95 V3, key codes and phase increments. -/
theorem test_frequency :
    keyCode cfg { resetChannel cfg with block := 4, fnum := 0x480 } = 19 ∧
    phaseInc cfg { resetChannel cfg with block := 4, fnum := 0x43B } { resetSlot cfg with mul := 1, dt := 7 } = 0x021CF000 ∧
    phaseInc cfg { resetChannel cfg with fnum := 1 } { resetSlot cfg with mul := 1, dt := 7 } = 0x1FFFE800 ∧
    phaseInc cfg { resetChannel cfg with block := 7, fnum := 0x7FF } { resetSlot cfg with mul := 15 } = 0xDFC40000 := by
  decide
/-- 95 V4: total attenuation and modulation. -/
theorem test_operator :
    totalAtt cfg { resetSlot cfg with envAcc := 86 * 65536, tl := 10 } = 566 ∧
    totalAtt cfg { resetSlot cfg with envAcc := 6000 * 65536, tl := 127 } = 6144 ∧
    modulatedPhase cfg (resetSlot cfg) 512 = 0x40000000 ∧ modulatedPhase cfg (resetSlot cfg) (-512) = 0xC0000000 ∧
    modulatedPhase cfg (resetSlot cfg) 2048 = 0 := by decide
/-- 95 V5.1: the feedback term. -/
theorem test_fbMod :
    fbMod cfg { resetChannel cfg with fb := 5, fbHist0 := 1000, fbHist1 := 600 } = 100 ∧
    fbMod cfg { resetChannel cfg with fb := 5, fbHist0 := BitVec.ofInt 16 (-1000), fbHist1 := BitVec.ofInt 16 (-601) } =
      -100 ∧
    fbMod cfg { resetChannel cfg with fb := 7, fbHist0 := 8191, fbHist1 := 8191 } = 4095 ∧
    fbMod cfg { resetChannel cfg with fb := 0, fbHist0 := 8191, fbHist1 := 8191 } = 0 := by decide
/-- 42 R126 to R133, examples: outputs 100, -50, 7, 3. -/
theorem test_algorithms :
    (List.range 8).map (fun a =>
        let alg : BitVec 3 := BitVec.ofNat 3 a
        [mod2 alg 100, mod3 alg 100 (-50), mod4 alg 100 (-50) 7, carrierSum alg 100 (-50) 7 3]) =
      [[100, -50, 7, 3], [0, 50, 7, 3], [0, -50, 107, 3], [100, 0, -43, 3],
        [100, 0, 7, -47], [100, 100, 100, -40], [100, 0, 0, -40], [0, 0, 0, 60]] := by decide
/-- 45 R194, examples. -/
theorem test_mixSide :
    mixSide 11 = 1 ∧ mixSide (-11) = BitVec.ofInt 16 (-1) ∧ mixSide 5 = 0 ∧ mixSide 196584 = 32764 := by decide

/-! ## A step runs the instruction placed -/

theorem test_step_placed :
    seen (step (State.reset.withFetchWord 24 0x04801)) (fun t => (t.slot 0 2).tl) = some 1 ∧
    seen (step (State.reset.withFetchWord 16 0x344)) (fun t => t.chip.addrLatch.b1) = some 0x44 ∧
    seen (step (State.reset.withFetchWord 48 7)) (fun t => t.chip.rs.pos) = some 7 := by decide

/-! ## Witnesses: concrete states and operands that meet the hypotheses of the statements -/

/-- A live state with a request waiting, one slot of each envelope state, and a nonzero history. -/
def busy : State :=
  { State.reset with
    chip :=
      { resetChip cfg with
        ch :=
          ((resetChip cfg).ch.set 2 { resetChannel cfg with fb := 7, fbHist0 := BitVec.ofInt 16 (-1000), fbHist1 := 400 }).set 1
            { resetChannel cfg with
              slot := ⟨{ resetSlot cfg with egState := .attack, ar := 31 }, { resetSlot cfg with egState := .decay, envAcc := 0 },
                { resetSlot cfg with egState := .sustain, envAcc := 9 }, { resetSlot cfg with egState := .release, rr := 1 }⟩
              fbHist0 := 8191
              fbHist1 := BitVec.ofInt 16 (-8191) }
        rs := { pos := 0x1_0000_0000, prev := ⟨32764, 0⟩, cur := ⟨0, BitVec.ofInt 16 (-32764)⟩ } }
    inputs := [.tick, .bus 0x1B0] }

/-- `busy` with the LFO enabled, and `busy` with one SSG-EG enable set. -/
def busyLfo : State := busy.withChip { busy.chip with lfoEnable := true }
def busySsg : State := busy.withChip (busy.chip.modifySlot 5 3 fun sl => { sl with ssgEn := true })

theorem busy_ready : busy.Ready := ⟨rfl, rfl, by decide⟩
theorem busy_inv : busy.Inv := fun _ => by
  unfold Chip.Inv Channel.Inv Slot.Inv Resampler.Inv Sample.within
  decide
theorem busy_tick : ∃ t, exec .tick busy = next t := ⟨_, exec_tick_next.2 ⟨rfl, rfl, rfl⟩⟩
theorem busy_hout (ratio : Ratio) : ∃ t, exec (.hout ratio) busy = next t :=
  ⟨_, exec_hout_next.2 ⟨rfl, _, pull_admitted cfg _ _ rfl, rfl⟩⟩
theorem busy_step : ∃ t, step busy = next t := by
  obtain ⟨t, h⟩ := busy_tick
  exact ⟨t.dropInput, by rw [show step busy = retire (exec .tick busy) from rfl, h]; rfl⟩

/-- DecodeOfEncodedInstruction: operands at the ends of their ranges, an ignored write among them. -/
theorem test_witness_wf :
    (Instr.wrTl .part1 3 2 0xFF).wf = true ∧ (Instr.hout 0xFFFF_FFFF_FFFF).wf = true ∧
    (Instr.wrIgnored .part1 0xFF 0xFF).wf = true ∧ (Instr.wrIgnored .part0 0x00 0x00).wf = true := by decide
/-- DecoderIgnoresExactlyUnmapped: both sides of the equivalence. -/
theorem test_witness_ignored :
    decodeRegWord (mkRegWord .part0 0x2F 0) = .wrIgnored .part0 0x2F 0 ∧
    decodeRegWord (mkRegWord .part0 0x30 0) ≠ .wrIgnored .part0 0x30 0 := by decide
/-- StepPerformsOldestRequest, each clause: a request that completes, one that faults, one that is refused. -/
theorem test_witness_step_next : ∃ t, busy.inputs = .tick :: [.bus 0x1B0] ∧ exec .tick busy = next t := by
  obtain ⟨t, h⟩ := busy_tick; exact ⟨t, rfl, h⟩
theorem test_witness_step_fault : exec .tick { busy with live := false } = fault .beforeReset := rfl
theorem test_witness_step_refused : exec .tick busyLfo = refused .lfoNotInSource := rfl
/-- StepWithoutRequestIdles. -/
theorem test_witness_idle : State.reset.inputs = [] := rfl
/-- OnlyTicksAreRefused, OneSamplePairPerTickOrHout, ParametersChangeOnlyByDataWrites: each clause. -/
theorem test_witness_outputs :
    (∃ t, exec (.hout 1) busy = next t) ∧ busy.live = true ∧ exec .kill busy ≠ refused .lfoNotInSource ∧
    exec .tick busySsg = refused .ssgNotInSource := by
  refine ⟨busy_hout 1, rfl, ?_, rfl⟩
  rw [show exec .kill busy = next _ from rfl]
  simp
theorem test_witness_parameters :
    (∃ t, busy.inputs = .tick :: [.bus 0x1B0] ∧ step busy = next t) ∧
    (∀ p v, decodeRequest .tick ≠ .dw p v ∧ decodeRequest .tick ≠ .aw p v) := by
  obtain ⟨t, h⟩ := busy_step
  exact ⟨⟨t, rfl, h⟩, by simp [decodeRequest]⟩
/-- StepKeepsInvariant. -/
theorem test_witness_invariant : ∃ t, busy.Inv ∧ step busy = next t := by
  obtain ⟨t, h⟩ := busy_step; exact ⟨t, busy_inv, h⟩
/-- EnvelopeTransitionsAreTheTable: each cause. -/
theorem test_witness_transitions :
    seen (exec .tick (withSlot 0 0 fun sl => { sl with egState := .attack, envAcc := 0 })) (fun t => (t.slot 0 0).egState)
      = some .decay ∧
    seen (exec .tick busy) (fun t => (t.slot 1 1).egState) = some .sustain ∧
    seen (exec .tick busy) (fun t => (t.slot 1 3).egState) = some .off ∧
    seen (exec .kill busy) (fun t => (t.slot 1 2).egState) = some .off ∧
    seen (exec (.wrKey 0x02) (withSlot 2 0 fun sl => { sl with egState := .attack })) (fun t => (t.slot 2 0).egState)
      = some .release ∧
    seen (exec (.dw .part0 0x10) (State.reset.withChip { resetChip cfg with addrLatch := ⟨0x28, 0⟩ }))
      (fun t => (t.slot 0 0).egState) = some .attack := by decide
/-- OnlyKeyOnLeavesOff: channel 5 by index 6, operator 2. -/
theorem test_witness_leaves_off :
    let s : State :=
      { State.reset.withChip { resetChip cfg with addrLatch := ⟨0x28, 0⟩ } with
        inputs := [.bus (mkBusWord .part0 0#1 0x26)] }
    (s.slot 5 2).egState = .off ∧ seen (step s) (fun t => (t.slot 5 2).egState) = some .attack := by decide
/-- UnreadRegistersAreUnobservable: two states that differ in registers nothing reads. -/
theorem test_witness_unread :
    let s := State.reset.withChip { resetChip cfg with lfoFreq := 7 }
    s ≠ State.reset ∧ s.chip.visible = State.reset.chip.visible ∧ s.live = State.reset.live ∧
    s.inputs = State.reset.inputs ∧ s.outputs = State.reset.outputs := by decide
/-- The register writes: a live state, and the channel of each part at the ends of its range. -/
theorem test_witness_writes :
    busy.live = true ∧ (0 : Chan).val = 3 * (partBit .part0).toNat + (0 : PartChan).val ∧
    (2 : Chan).val = 3 * (partBit .part0).toNat + (2 : PartChan).val ∧
    (3 : Chan).val = 3 * (partBit .part1).toNat + (0 : PartChan).val ∧
    (5 : Chan).val = 3 * (partBit .part1).toNat + (2 : PartChan).val := by decide
/-- BusWritesAreIdempotent: a key write on the bus. -/
theorem test_witness_idempotent :
    ∃ t, exec (.dw .part0 0xF0) (State.reset.withChip { resetChip cfg with addrLatch := ⟨0x28, 0⟩ }) = next t ∧
      (t.slot 0 0).egState = .attack := ⟨_, rfl, rfl⟩
/-- KeyWrite: an ignored index and a channel index, at the ends of each clause. -/
theorem test_witness_key :
    (0xF3#8).toNat % 4 = 3 ∧ (0x07#8).toNat % 4 = 3 ∧ (0x06#8).toNat % 4 ≠ 3 ∧ (0xF0#8).toNat % 4 ≠ 3 ∧
    exec (.wrKey 0xF3) busy = next busy := ⟨by decide, by decide, by decide, by decide, rfl⟩
/-- PitchChangesOnlyByItsWrites: writes to other channels and slots meet the hypotheses. -/
theorem test_witness_pitch :
    (∃ t, exec (.wrDtmul .part1 0 2 0x7F) busy = next t) ∧
    (∀ p n v, Instr.wrDtmul .part1 0 2 0x7F = .wrFnlo p n v → chanOf p n ≠ 1) ∧
    (∀ p n v, Instr.wrDtmul .part1 0 2 0x7F = .wrDtmul p 0 n v → chanOf p n ≠ 1) := by
  refine ⟨⟨_, rfl⟩, by simp, ?_⟩
  rintro p n v h
  cases h
  decide
/-- EnvelopeIncrementMonotone: the ends of both ranges. -/
theorem test_witness_monotone :
    egInc cfg 1 0 0 ≤ egInc cfg 31 0 0 ∧ cfg.envTop / completionSamples 1 < cfg.envTop / completionSamples 63 := by
  decide
/-- TickEnvelopeStep, TickEnvelopeDirection, TickAdvancesEveryPhase, TickOperatorOneOutput, TickResult: a ready state of
the invariant that ticks, with a slot in each envelope state, and channels without and with feedback. -/
theorem test_witness_tick :
    busy.Ready ∧ busy.Inv ∧ (∃ t, exec .tick busy = next t) ∧ (busy.slot 1 0).egState = .attack ∧
    (busy.slot 1 1).egState = .decay ∧ (busy.slot 1 2).egState = .sustain ∧ (busy.slot 1 3).egState = .release ∧
    (busy.slot 0 0).egState = .off ∧ (busy.channel 1).fb = 0 ∧ (busy.channel 2).fb = 7 ∧
    fbMod cfg (busy.channel 2) = -150 :=
  ⟨busy_ready, busy_inv, busy_tick, rfl, rfl, rfl, rfl, rfl, rfl, rfl, by decide⟩
/-- ModulationShiftsPhase: another slot than the one ticked. -/
theorem test_witness_other_slot : (3 : SlotIx) ≠ 0 := by decide
/-- FreeOpWaveCoversAdmissible: a concrete function with all the named properties. -/
theorem test_witness_laws :
    OpWaveLaws (fun theta a =>
      if a = 0 then (if theta = 0x40000000#32 then 8191 else if theta = 0xC0000000#32 then -8191 else 0) else 0)
      8191 6143 6144 := by
  constructor
  · intro theta a; split_ifs <;> omega
  · intro a; split_ifs <;> simp_all
  · intro theta a
    split_ifs <;> first | rfl | (exfalso; bv_omega)
  · intro theta a
    split_ifs <;> first | rfl | (exfalso; bv_omega)
  · intro theta a h
    split_ifs <;> first | rfl | (exfalso; bv_omega)
  · intro theta a
    constructor <;> intro h <;> split_ifs <;> first | omega | (exfalso; bv_omega)
  · decide
  · intro theta a b h; split_ifs <;> omega
  · intro theta a h; rw [if_neg (by omega)]
  · intro _ theta a h; rw [if_neg (by omega)]
  · intro theta; rfl
/-- ExactOpWaveHasNamedProperties, ExactOpWaveSampleValues: the exact operator function exists. -/
theorem test_witness_exact : ∃ f, IsExactOpWave f 8191 6143 := by
  classical
  refine ⟨fun theta a =>
    let x := Real.sin (2 * Real.pi * theta.toNat / 2 ^ 32) * (10 : ℝ) ^ (-(a : ℝ) / 1280) * (8191 : Nat)
    if 6143 < a then 0 else if 0 ≤ x then ⌊x⌋ else ⌈x⌉, fun theta a => ⟨fun h => if_pos h, fun h => ?_⟩⟩
  simp only [if_neg (by omega : ¬6143 < a)]
  exact ⟨fun hx => if_pos hx, fun hx => if_neg (not_le.2 hx)⟩
/-- FeedbackTermRule: each clause, the largest feedback at the ends of the history. -/
theorem test_witness_feedback :
    (busy.channel 1).Inv ∧ (busy.channel 1).fb = 0 ∧
    ({ resetChannel cfg with fb := 7, fbHist0 := 8191, fbHist1 := 8191 } : Channel).Inv ∧
    fbMod cfg { resetChannel cfg with fb := 7, fbHist0 := BitVec.ofInt 16 (-8191), fbHist1 := BitVec.ofInt 16 (-8191) } =
      -4095 := by
  unfold Channel.Inv Slot.Inv Sample.within
  decide
/-- AlgorithmRouting: operator outputs and modulation inputs as the hypotheses name them, for each algorithm. -/
theorem test_witness_routing (alg : BitVec 3) :
    ∃ (ch : Channel) (o1 o2 o3 o4 m2 m3 m4 : Int), ch.alg = alg ∧ o1 = opOutput cfg (ch.slot.get 0) (fbMod cfg ch) ∧
      o2 = opOutput cfg (ch.slot.get 2) m2 ∧ o3 = opOutput cfg (ch.slot.get 1) m3 ∧
      o4 = opOutput cfg (ch.slot.get 3) m4 ∧ m2 = mod2 alg o1 ∧ m3 = mod3 alg o1 o2 ∧ m4 = mod4 alg o1 o2 o3 :=
  ⟨{ resetChannel cfg with alg := alg }, _, _, _, _, _, _, _, rfl, rfl, rfl, rfl, rfl, rfl, rfl, rfl⟩
/-- AlgorithmFourIsTwoChains: a loud channel and its two chains. -/
theorem test_witness_chains :
    let loud : Slot := { resetSlot cfg with envAcc := 0, egState := .sustain }
    let a : Channel := { resetChannel cfg with alg := 4, fb := 5, slot := ⟨loud, loud, loud, loud⟩ }
    let b : Channel := { a with slot := ⟨loud, resetSlot cfg, loud, resetSlot cfg⟩ }
    let d : Channel := { a with slot := ⟨resetSlot cfg, loud, resetSlot cfg, loud⟩ }
    a.alg = 4 ∧ b.alg = 4 ∧ d.alg = 4 ∧ a.fb = b.fb ∧ a.fbHist0 = b.fbHist0 ∧ a.fbHist1 = b.fbHist1 ∧
    b.slot.get 0 = a.slot.get 0 ∧ b.slot.get 2 = a.slot.get 2 ∧
    (b.slot.get 1).envAcc = cfg.envTop ∧ (b.slot.get 3).envAcc = cfg.envTop ∧
    d.slot.get 1 = a.slot.get 1 ∧ d.slot.get 3 = a.slot.get 3 ∧
    (d.slot.get 0).envAcc = cfg.envTop ∧ (d.slot.get 2).envAcc = cfg.envTop := by decide
/-- FeedbackZeroIgnoresHistory. -/
theorem test_witness_no_feedback : ({ resetChannel cfg with fbHist0 := 8191 } : Channel).fb = 0 := by decide
/-- SilentTickReturnsZero: every slot Off, a running phase, a nonzero history. -/
theorem test_witness_silent :
    let s := withChannel 2 fun ch => { ch with fbHist0 := 8191, fnum := 0x400 }
    s.Inv ∧ (∀ c k, (s.slot c k).egState = .off) ∧ ∃ t, exec .tick s = next t := by
  refine ⟨fun _ => ?_, by decide, ⟨_, exec_tick_next.2 ⟨rfl, rfl, rfl⟩⟩⟩
  unfold Chip.Inv Channel.Inv Slot.Inv Resampler.Inv Sample.within
  decide
/-- MixNeverSaturates: a block whose stereo enables agree. -/
theorem test_witness_equal_enables : ∀ c, (busy.channel c).panL = (busy.channel c).panR := by decide
/-- TickAdmission: each clause, and a configuration with both `ignore` policies, under which a block with an enable set
ticks. -/
theorem test_witness_admission :
    (busyLfo.live = true ∧ busyLfo.chip.lfoEnable = true) ∧
    (busySsg.live = true ∧ busySsg.chip.lfoEnable = false ∧ (busySsg.slot 5 3).ssgEn = true) ∧
    (∃ g : Cfg, (busyLfo.chip.lfoEnable = true → g.lfoPolicy = .ignore) ∧
      ((∃ c k, ((busyLfo.chip.ch.get c).slot.get k).ssgEn = true) → g.ssgPolicy = .ignore)) :=
  ⟨⟨rfl, rfl⟩, ⟨rfl, rfl, by decide⟩,
    ⟨{ cfg with lfoPolicy := .ignore, ssgPolicy := .ignore }, fun _ => rfl, fun _ => rfl⟩⟩
/-- HoutWithoutTick: the last position below 1.0, the LFO enabled. -/
theorem test_witness_hout_without :
    let s := State.reset.withChip
      { resetChip cfg with lfoEnable := true, rs := { pos := 0xFFFF_FFFF, prev := ⟨1, 2⟩, cur := ⟨3, 4⟩ } }
    s.live = true ∧ s.chip.rs.pos < 4294967296 := by decide
/-- HoutPullsTick: the position at exactly 1.0, with a tick that completes and with one that is refused. -/
theorem test_witness_hout_pulls :
    busy.live = true ∧ 4294967296 ≤ busy.chip.rs.pos ∧
    (∃ (u v : State) (y : Pair) (pos : Nat), exec .tick busy = next u ∧ u.outputs = busy.outputs ++ [y] ∧
      pos + 4294967296 = busy.chip.rs.pos ∧
      v = { busy with chip := { u.chip with rs := { pos := pos, prev := busy.chip.rs.cur, cur := y } } }) ∧
    busyLfo.live = true ∧ 4294967296 ≤ busyLfo.chip.rs.pos ∧ exec .tick busyLfo = refused .lfoNotInSource :=
  ⟨rfl, by decide, ⟨_, _, _, 0, exec_tick_next.2 ⟨rfl, rfl, rfl⟩, rfl, by decide, rfl⟩, rfl, by decide, rfl⟩
/-- HoutTickCountAndPosition, HoutSampleBetweenHeldPairs, TickAfterKillIsSilent. -/
theorem test_witness_hout : busy.Ready ∧ ∀ ratio, ∃ t, exec (.hout ratio) busy = next t := ⟨busy_ready, busy_hout⟩

end Sys2Proof.Tests
end

/-!
The register-write statements of 44_register_interface whose registers lie in the banked part of the map: where the
decoder sends the number of a banked register, what a field of the data byte is as a number, and the statements.
-/

namespace Sys2Proof

/-! ## Register numbers of the banked registers (30_encoding R62, R64) -/

theorem append_two_bits_toNat {w i : Nat} (x : BitVec w) (hi : i < 4) :
    (x ++ BitVec.ofNat 2 i).toNat = 4 * x.toNat + i := by
  have hlow : (BitVec.ofNat 2 i).toNat = i := by
    rw [BitVec.toNat_ofNat]
    exact Nat.mod_eq_of_lt hi
  rw [BitVec.toNat_append, hlow, ← Nat.shiftLeft_add_eq_or_of_lt hi, Nat.shiftLeft_eq]
  omega

theorem channelReg_toNat (base : BitVec 6) (n : PartChan) :
    (channelReg base n).toNat = 4 * base.toNat + n.val :=
  append_two_bits_toNat base (by omega)

theorem operatorReg_toNat (family : BitVec 4) (k : SlotIx) (n : PartChan) :
    (operatorReg family k n).toNat = 16 * family.toNat + 4 * k.val + n.val := by
  have hbase : (family ++ BitVec.ofNat 2 k.val).toNat = 4 * family.toNat + k.val :=
    append_two_bits_toNat family k.isLt
  have hreg : (operatorReg family k n).toNat = 4 * (family ++ BitVec.ofNat 2 k.val).toNat + n.val :=
    channelReg_toNat _ n
  omega

@[simp] theorem regFamily_operatorReg (family : BitVec 4) (k : SlotIx) (n : PartChan) :
    regFamily (operatorReg family k n) = family.toNat := by
  simp only [regFamily, operatorReg_toNat]
  omega

@[simp] theorem regSlot_operatorReg (family : BitVec 4) (k : SlotIx) (n : PartChan) :
    regSlot (operatorReg family k n) = k := by
  apply Fin.ext
  simp only [regSlot, operatorReg_toNat]
  omega

@[simp] theorem regFamily_channelReg (base : BitVec 6) (n : PartChan) :
    regFamily (channelReg base n) = base.toNat / 4 := by
  simp only [regFamily, channelReg_toNat]
  omega

@[simp] theorem channelReg_toNat_div_four (base : BitVec 6) (n : PartChan) :
    (channelReg base n).toNat / 4 = base.toNat := by
  rw [channelReg_toNat]
  omega

theorem regChan_of_toNat_mod {reg : Byte} {n : PartChan} (h : reg.toNat % 4 = n.val) : regChan reg = some n := by
  simp [regChan, h]

/-- A register number outside the global registers' family that names a channel is decoded in the banked part of the
dispatch table (30_encoding R64). -/
theorem decode_regWord_banked {reg : Byte} {n : PartChan} (hfam : regFamily reg ≠ 2) (hchan : reg.toNat % 4 = n.val)
    (p : Part) (v : Byte) : decode (.regWord (mkRegWord p reg v)) = decodeBanked p reg n v := by
  have hlfo : reg ≠ 0x22#8 := by rintro rfl; exact hfam rfl
  have hkey : reg ≠ 0x28#8 := by rintro rfl; exact hfam rfl
  simp [decode, decodeReg, hlfo, hkey, regChan_of_toNat_mod hchan]

theorem decode_operatorReg {family : BitVec 4} (hfam : family.toNat ≠ 2) (p : Part) (k : SlotIx) (n : PartChan)
    (v : Byte) :
    decode (.regWord (mkRegWord p (operatorReg family k n) v)) = decodeBanked p (operatorReg family k n) n v :=
  decode_regWord_banked (by simpa using hfam) (by rw [operatorReg_toNat]; omega) p v

theorem decode_channelReg {base : BitVec 6} (hfam : base.toNat / 4 ≠ 2) (p : Part) (n : PartChan) (v : Byte) :
    decode (.regWord (mkRegWord p (channelReg base n) v)) = decodeBanked p (channelReg base n) n v :=
  decode_regWord_banked (by simpa using hfam) (by rw [channelReg_toNat]; omega) p v

end Sys2Proof

namespace Sys2Proof.Machine

/-! ## Fields of a data byte as numbers -/

/-- The field of `len` bits from bit `lo` on. -/
theorem byteField_eq_div (v : Byte) (lo len : Nat) : v.extractLsb' lo len = BitVec.ofNat len (v.toNat / 2 ^ lo) := by
  rw [← Nat.shiftRight_eq_div_pow]
  rfl

/-- The field of the low `len` bits. -/
theorem byteField_low_eq_mod (v : Byte) (len : Nat) :
    v.extractLsb' 0 len = BitVec.ofNat len (v.toNat % 2 ^ len) := by
  apply BitVec.eq_of_toNat_eq
  simp

theorem byteBit_seven_eq_le (v : Byte) : v.getLsbD 7 = decide (128 ≤ v.toNat) :=
  BitVec.msb_eq_decide v

theorem byteBit_eq_div_mod (v : Byte) (i : Nat) : v.getLsbD i = decide (v.toNat / 2 ^ i % 2 = 1) :=
  Nat.testBit_eq_decide_div_mod_eq

/-! ## A write to the slot or channel that the operands name -/

/-- `writeSlot_written` with the channel given as the number `3*p + n` of 30_encoding R62. -/
theorem writeSlot_chanOf_written {p : Part} {n : PartChan} {s : State} {c : Chan} (hl : s.live = true)
    (hc : c.val = 3 * (partBit p).toNat + n.val) (k : SlotIx) (f : Slot → Slot) :
    ∃ t, writeSlot s (chanOf p n) k f = .next t ∧ t.SlotWritten s c k (f (s.slot c k)) := by
  rw [← eq_chanOf hc]
  exact writeSlot_written hl c k f

/-- `writeChannel_written` with the channel given as the number `3*p + n` of 30_encoding R62. -/
theorem writeChannel_chanOf_written {p : Part} {n : PartChan} {s : State} {c : Chan} (hl : s.live = true)
    (hc : c.val = 3 * (partBit p).toNat + n.val) (f : Channel → Channel) :
    ∃ t, writeChannel s (chanOf p n) f = .next t ∧ t.ChannelWritten s c (f (s.channel c)) := by
  rw [← eq_chanOf hc]
  exact writeChannel_written hl c f

/-! ## The statements -/

/-- Settles O22 (44 R157): the slot write with `dt` and `mul` read as numbers. -/
theorem detuneMultipleWrite : Obligations.DetuneMultipleWrite := by
  intro p k n v s c hl hc
  have hdt : v.extractLsb' 4 3 = BitVec.ofNat 3 (v.toNat / 16) := byteField_eq_div v 4 3
  have hmul : v.extractLsb' 0 4 = BitVec.ofNat 4 (v.toNat % 16) := byteField_low_eq_mod v 4
  refine ⟨(decode_operatorReg (by decide) p k n v).trans (by simp [decodeBanked]), ?_⟩
  rw [← hdt, ← hmul]
  exact writeSlot_chanOf_written hl hc k _

/-- Settles O23 (44 R158): the slot write with `tl` read as a number. -/
theorem totalLevelWrite : Obligations.TotalLevelWrite := by
  intro p k n v s c hl hc
  have htl : v.extractLsb' 0 7 = BitVec.ofNat 7 (v.toNat % 128) := byteField_low_eq_mod v 7
  refine ⟨(decode_operatorReg (by decide) p k n v).trans (by simp [decodeBanked]), ?_⟩
  rw [← htl]
  exact writeSlot_chanOf_written hl hc k _

/-- Settles O24 (44 R159): the slot write with `ks` and `ar` read as numbers. -/
theorem keyScaleAttackWrite : Obligations.KeyScaleAttackWrite := by
  intro p k n v s c hl hc
  have hks : v.extractLsb' 6 2 = BitVec.ofNat 2 (v.toNat / 64) := byteField_eq_div v 6 2
  have har : v.extractLsb' 0 5 = BitVec.ofNat 5 (v.toNat % 32) := byteField_low_eq_mod v 5
  refine ⟨(decode_operatorReg (by decide) p k n v).trans (by simp [decodeBanked]), ?_⟩
  rw [← hks, ← har]
  exact writeSlot_chanOf_written hl hc k _

/-- Settles O25 (44 R160): the slot write with `am` as the top bit and `dr` read as a number. -/
theorem amDecayWrite : Obligations.AmDecayWrite := by
  intro p k n v s c hl hc
  have ham : v.getLsbD 7 = decide (128 ≤ v.toNat) := byteBit_seven_eq_le v
  have hdr : v.extractLsb' 0 5 = BitVec.ofNat 5 (v.toNat % 32) := byteField_low_eq_mod v 5
  refine ⟨(decode_operatorReg (by decide) p k n v).trans (by simp [decodeBanked]), ?_⟩
  rw [← ham, ← hdr]
  exact writeSlot_chanOf_written hl hc k _

/-- Settles O26 (44 R161): the slot write with `sr` read as a number. -/
theorem sustainRateWrite : Obligations.SustainRateWrite := by
  intro p k n v s c hl hc
  have hsr : v.extractLsb' 0 5 = BitVec.ofNat 5 (v.toNat % 32) := byteField_low_eq_mod v 5
  refine ⟨(decode_operatorReg (by decide) p k n v).trans (by simp [decodeBanked]), ?_⟩
  rw [← hsr]
  exact writeSlot_chanOf_written hl hc k _

/-- Settles O27 (44 R162): the slot write with `sl` and `rr` read as numbers. -/
theorem sustainLevelReleaseWrite : Obligations.SustainLevelReleaseWrite := by
  intro p k n v s c hl hc
  have hsl : v.extractLsb' 4 4 = BitVec.ofNat 4 (v.toNat / 16) := byteField_eq_div v 4 4
  have hrr : v.extractLsb' 0 4 = BitVec.ofNat 4 (v.toNat % 16) := byteField_low_eq_mod v 4
  refine ⟨(decode_operatorReg (by decide) p k n v).trans (by simp [decodeBanked]), ?_⟩
  rw [← hsl, ← hrr]
  exact writeSlot_chanOf_written hl hc k _

/-- Settles O28 (44 R163): the slot write with `ssgEn` as bit 3 and `ssgMode` read as a number. -/
theorem ssgEgWrite : Obligations.SsgEgWrite := by
  intro p k n v s c hl hc
  have hssgEn : v.getLsbD 3 = decide (v.toNat / 8 % 2 = 1) := byteBit_eq_div_mod v 3
  have hssgMode : v.extractLsb' 0 3 = BitVec.ofNat 3 (v.toNat % 8) := byteField_low_eq_mod v 3
  refine ⟨(decode_operatorReg (by decide) p k n v).trans (by simp [decodeBanked]), ?_⟩
  rw [← hssgEn, ← hssgMode]
  exact writeSlot_chanOf_written hl hc k _

/-- Settles O31 (44 R166): the channel write with `fb` and `alg` read as numbers. -/
theorem feedbackAlgorithmWrite : Obligations.FeedbackAlgorithmWrite := by
  intro p n v s c hl hc
  have hfb : v.extractLsb' 3 3 = BitVec.ofNat 3 (v.toNat / 8) := byteField_eq_div v 3 3
  have halg : v.extractLsb' 0 3 = BitVec.ofNat 3 (v.toNat % 8) := byteField_low_eq_mod v 3
  refine ⟨(decode_channelReg (by decide) p n v).trans (by simp [decodeBanked]), ?_⟩
  rw [← hfb, ← halg]
  exact writeChannel_chanOf_written hl hc _

end Sys2Proof.Machine

/-!
The decoder and the encoder are inverse to each other (30_encoding R61 to R66), and the decoder ignores exactly what
the address map of 20_memory R48 leaves unmapped.
-/

namespace Sys2Proof

/-! ## Bus words -/

theorem partBit_partOfBit (b : Bool) : partBit (partOfBit b) = BitVec.ofBool b := by cases b <;> rfl

section
variable (p : Part) (a : BitVec 1) (v : Byte)

theorem mkBusWord_isAddress : (mkBusWord p a v).getLsbD 8 = a.getLsbD 0 := by
  rw [mkBusWord, BitVec.getLsbD_append, BitVec.getLsbD_append]
  rfl

theorem mkBusWord_part : partOfBit ((mkBusWord p a v).getLsbD 9) = p := by
  rw [mkBusWord, BitVec.getLsbD_append, BitVec.getLsbD_append]
  exact partOfBit_partBit p

theorem mkBusWord_value : (mkBusWord p a v).extractLsb' 0 8 = v := by
  apply BitVec.eq_of_getLsbD_eq
  intro i hi
  simp only [mkBusWord, BitVec.getLsbD_extractLsb', BitVec.getLsbD_append]
  simp [hi]

end

/-- A bus word is put together from its own fields (30_encoding R61). -/
theorem mkBusWord_fields (w : BusWord) :
    mkBusWord (partOfBit (w.getLsbD 9)) (BitVec.ofBool (w.getLsbD 8)) (w.extractLsb' 0 8) = w := by
  rw [mkBusWord, partBit_partOfBit]
  apply BitVec.eq_of_getLsbD_eq
  intro i hi
  simp only [BitVec.getLsbD_append, BitVec.getLsbD_extractLsb', BitVec.getLsbD_ofBool]
  interval_cases i <;> simp

@[simp] theorem decodeBus_address (p : Part) (v : Byte) : decodeBus (mkBusWord p 1#1 v) = .aw p v := by
  rw [decodeBus, mkBusWord_isAddress, mkBusWord_part, mkBusWord_value]
  rfl

@[simp] theorem decodeBus_data (p : Part) (v : Byte) : decodeBus (mkBusWord p 0#1 v) = .dw p v := by
  rw [decodeBus, mkBusWord_isAddress, mkBusWord_part, mkBusWord_value]
  rfl

theorem encode_decodeBus (w : BusWord) : encode (decodeBus w) = .request (.bus w) := by
  have hw := mkBusWord_fields w
  unfold decodeBus
  cases ha : w.getLsbD 8 with
  | true =>
    rw [ha] at hw
    exact congrArg (Encoded.request ∘ Request.bus) hw
  | false =>
    rw [ha] at hw
    exact congrArg (Encoded.request ∘ Request.bus) hw

theorem encode_decodeRequest (r : Request) : encode (decodeRequest r) = .request r := by
  cases r with
  | bus w => exact encode_decodeBus w
  | tick | hout | reset | kill => rfl

/-! ## Register-write words -/

/-- A register-write word is put together from its own fields (30_encoding R62). -/
theorem mkRegWord_fields (w : RegWord) : mkRegWord (regWordPart w) (regWordReg w) (regWordValue w) = w := by
  rw [mkRegWord, regWordPart, partBit_partOfBit]
  apply BitVec.eq_of_getLsbD_eq
  intro i hi
  simp only [BitVec.getLsbD_append, regWordReg, regWordValue, BitVec.getLsbD_extractLsb', BitVec.getLsbD_ofBool]
  by_cases h8 : i < 8
  · simp [h8]
  by_cases h16 : i < 16
  · simp [h8, show i - 8 < 8 by omega, show 8 + (i - 8) = i by omega]
  · simp [show i = 16 by omega]

/-- The operands of a register-write word are its fields, so equal words have equal operands. -/
theorem mkRegWord_inj {p p' : Part} {r r' v v' : Byte} (h : mkRegWord p r v = mkRegWord p' r' v') :
    p = p' ∧ r = r' ∧ v = v' :=
  ⟨by simpa using congrArg regWordPart h, by simpa using congrArg regWordReg h,
    by simpa using congrArg regWordValue h⟩

/-- An operator register's number is its family, slot index and channel in part (30_encoding R62). -/
theorem operatorReg_fields {family : BitVec 4} {reg : Byte} {n : PartChan} (hf : regFamily reg = family.toNat)
    (hn : reg.toNat % 4 = n.val) : operatorReg family (regSlot reg) n = reg := by
  apply BitVec.eq_of_toNat_eq
  simp only [operatorReg_toNat, regSlot, regFamily] at hf ⊢
  omega

/-- A channel register's number is its upper six bits and the channel in part (30_encoding R62). -/
theorem channelReg_fields {base : BitVec 6} {reg : Byte} {n : PartChan} (hb : reg.toNat / 4 = base.toNat)
    (hn : reg.toNat % 4 = n.val) : channelReg base n = reg := by
  apply BitVec.eq_of_toNat_eq
  simp only [channelReg_toNat]
  omega

/-- The channel in part that a register number names, and its absence at 3 (30_encoding R62). -/
theorem regChan_eq_some {reg : Byte} {n : PartChan} : regChan reg = some n ↔ reg.toNat % 4 = n.val := by
  constructor
  · intro h
    unfold regChan at h
    split at h
    · cases h; rfl
    · cases h
  · exact regChan_of_toNat_mod

theorem regChan_eq_none {reg : Byte} : regChan reg = none ↔ reg.toNat % 4 = 3 := by
  unfold regChan
  split
  · simp; omega
  · simp; omega

theorem encode_decodeBanked (p : Part) {reg : Byte} {n : PartChan} (hn : reg.toNat % 4 = n.val) (v : Byte) :
    encode (decodeBanked p reg n v) = .regWord (mkRegWord p reg v) := by
  have hop : ∀ family : BitVec 4, regFamily reg = family.toNat → operatorReg family (regSlot reg) n = reg :=
    fun _ hf => operatorReg_fields hf hn
  have hch : ∀ base : BitVec 6, reg.toNat / 4 = base.toNat → channelReg base n = reg :=
    fun _ hb => channelReg_fields hb hn
  have hword : ∀ {r : Byte}, r = reg → Encoded.regWord (mkRegWord p r v) = .regWord (mkRegWord p reg v) := by
    rintro _ rfl; rfl
  unfold decodeBanked
  split
  next h => exact hword (hop 0x3#4 h)
  split
  next h => exact hword (hop 0x4#4 h)
  split
  next h => exact hword (hop 0x5#4 h)
  split
  next h => exact hword (hop 0x6#4 h)
  split
  next h => exact hword (hop 0x7#4 h)
  split
  next h => exact hword (hop 0x8#4 h)
  split
  next h => exact hword (hop 0x9#4 h)
  split
  next h => exact hword (hch 0b101000#6 h)
  split
  next h => exact hword (hch 0b101001#6 h)
  split
  next h => exact hword (hch 0b101100#6 h)
  split
  next h => exact hword (hch 0b101101#6 h)
  rfl

/-- No bit of a register-write word is dropped by the decoder (30_encoding R64, R66). -/
theorem encode_decodeReg (p : Part) (reg v : Byte) : encode (decodeReg p reg v) = .regWord (mkRegWord p reg v) := by
  unfold decodeReg
  split_ifs with hlfo hkey
  · obtain ⟨rfl, rfl⟩ := hlfo; rfl
  · obtain ⟨rfl, rfl⟩ := hkey; rfl
  · cases hn : regChan reg with
    | none => rfl
    | some n => exact encode_decodeBanked p (regChan_eq_some.1 hn) v

/-- A register write that decodes as an ignored one carries the operands of its word. -/
theorem ignored_operands {p p' : Part} {reg reg' v v' : Byte} (h : decodeReg p reg v = .wrIgnored p' reg' v') :
    p' = p ∧ reg' = reg ∧ v' = v := by
  have he := encode_decodeReg p reg v
  rw [h] at he
  exact mkRegWord_inj (Encoded.regWord.inj he)

/-! ## The address map -/

/-- The map outside the global registers, for a register number whose low bits name a channel (20_memory R48). -/
theorem isMapped_banked_iff {p : Part} {reg : Byte}
    (hglobal : (p == Part.part0 && (reg.toNat == 0x22 || reg.toNat == 0x28)) = false) (hn : reg.toNat % 4 < 3) :
    isMapped p reg = true ↔
      (3 ≤ regFamily reg ∧ regFamily reg ≤ 9) ∨ reg.toNat / 4 = 0b101000 ∨ reg.toNat / 4 = 0b101001 ∨
        reg.toNat / 4 = 0b101100 ∨ reg.toNat / 4 = 0b101101 := by
  simp only [isMapped, hglobal, regFamily, Bool.false_or, Bool.or_eq_true, Bool.and_eq_true, decide_eq_true_eq,
    bne_iff_ne]
  omega

theorem decodeBanked_ignored_iff {p : Part} {reg : Byte} {n : PartChan} (hn : reg.toNat % 4 = n.val)
    (hglobal : (p == Part.part0 && (reg.toNat == 0x22 || reg.toNat == 0x28)) = false) (v : Byte) :
    decodeBanked p reg n v = .wrIgnored p reg v ↔ isMapped p reg = false := by
  rw [← Bool.not_eq_true, isMapped_banked_iff hglobal (by omega)]
  unfold decodeBanked
  repeat' split
  all_goals
    simp only [reduceCtorEq, true_iff, false_iff, not_not]
    omega

/-- The decoder's ignored rows are the unmapped addresses (20_memory R48, 30_encoding R64). -/
theorem decodeReg_ignored_iff (p : Part) (reg v : Byte) :
    decodeReg p reg v = .wrIgnored p reg v ↔ isMapped p reg = false := by
  unfold decodeReg
  split_ifs with hlfo hkey
  · obtain ⟨rfl, rfl⟩ := hlfo; simp; decide
  · obtain ⟨rfl, rfl⟩ := hkey; simp; decide
  · have hglobal : (p == Part.part0 && (reg.toNat == 0x22 || reg.toNat == 0x28)) = false := by
      rw [BitVec.toNat_eq] at hlfo hkey
      cases p <;> simp_all
    cases hn : regChan reg with
    | some n => exact decodeBanked_ignored_iff (regChan_eq_some.1 hn) hglobal v
    | none =>
      have h3 := regChan_eq_none.1 hn
      simp [isMapped, hglobal]
      omega

/-- Whatever the decoder selects is an encoding of the block. -/
theorem decodeReg_wf (p : Part) (reg v : Byte) : (decodeReg p reg v).wf = true := by
  cases hd : decodeReg p reg v with
  | wrIgnored p' reg' v' =>
    obtain ⟨rfl, rfl, rfl⟩ := ignored_operands hd
    simpa [Instr.wf] using (decodeReg_ignored_iff _ _ _).1 hd
  | _ => rfl

theorem decode_wf (e : Encoded) : (decode e).wf = true := by
  cases e with
  | regWord w => exact decodeReg_wf _ _ _
  | request r =>
    cases r with
    | bus w => simp only [decode, decodeRequest, decodeBus]; split <;> rfl
    | tick | hout | reset | kill => rfl

/-! ## The statements -/

/-- Settles O2 (30_encoding R64, R66). -/
theorem encodeOfDecodedWord : Obligations.EncodeOfDecodedWord := by
  intro e
  refine ⟨decode_wf e, ?_⟩
  cases e with
  | request r => exact encode_decodeRequest r
  | regWord w => exact (encode_decodeReg _ _ _).trans (congrArg Encoded.regWord (mkRegWord_fields w))

/-- Settles O4 (20_memory R48). -/
theorem decoderIgnoresExactlyUnmapped : Obligations.DecoderIgnoresExactlyUnmapped := by
  intro p reg v
  rw [decodeRegWord_mk]
  exact decodeReg_ignored_iff p reg v

/-- Settles O1 (30_encoding R61 to R64): one case a mnemonic; the address map enters at the ignored write alone. -/
theorem decodeOfEncodedInstruction : Obligations.DecodeOfEncodedInstruction := by
  intro i hi
  have hop : ∀ {family : BitVec 4} (p k n v), family.toNat ≠ 2 →
      decode (.regWord (mkRegWord p (operatorReg family k n) v)) = decodeBanked p (operatorReg family k n) n v :=
    fun p k n v hf => decode_operatorReg hf p k n v
  have hch : ∀ {base : BitVec 6} (p n v), base.toNat / 4 ≠ 2 →
      decode (.regWord (mkRegWord p (channelReg base n) v)) = decodeBanked p (channelReg base n) n v :=
    fun p n v hb => decode_channelReg hb p n v
  cases i with
  | aw p v => exact decodeBus_address p v
  | dw p v => exact decodeBus_data p v
  | wrLfo v | wrKey v => simp [encode, decode, decodeReg]
  | wrDtmul p k n v | wrTl p k n v | wrKsar p k n v | wrAmdr p k n v | wrSr p k n v | wrSlrr p k n v
  | wrSsgeg p k n v =>
    exact (hop p k n v (by decide)).trans (by simp [decodeBanked])
  | wrFnlo p n v | wrFnhi p n v | wrFbalg p n v | wrPansens p n v =>
    exact (hch p n v (by decide)).trans (by simp [decodeBanked])
  | wrIgnored p reg v =>
    have hunmapped : isMapped p reg = false := by simpa [Instr.wf] using hi
    exact (decodeRegWord_mk p reg v).trans ((decodeReg_ignored_iff p reg v).2 hunmapped)
  | tick | hout | reset | kill => rfl

/-- Settles O3: each word's fields are closed terms. -/
theorem printedWordsDecode : Obligations.PrintedWordsDecode := by
  unfold Obligations.PrintedWordsDecode
  decide

end Sys2Proof

/-!
What an operation can do to the state, said once: `Effect` lists the completed operations, `ParamWrite` says what a
write of registers other than a key write keeps. The statements about outcomes, and about the bus, follow from it.
-/

namespace Sys2Proof.Machine

/-! ## Writes of registers -/

/-- A function on the block that sees of it only what is visible: the registers that nothing reads reach none of the
others (10_state R11 to R13). -/
def ReadsVisible (f : Chip → Chip) : Prop := ∀ chip, (f chip.visible).visible = (f chip).visible

theorem ReadsVisible.comp {f h : Chip → Chip} (hf : ReadsVisible f) (hh : ReadsVisible h) :
    ReadsVisible fun chip => f (h chip) := fun chip => by
  rw [← hf (h chip.visible), hh chip, hf (h chip)]

/-- What runs in a slot agrees: phase, envelope state and accumulator (10_state R15 to R17). -/
def Slot.SameRun (a b : Slot) : Prop := a.phase = b.phase ∧ a.egState = b.egState ∧ a.envAcc = b.envAcc

/-- What runs in a channel agrees: its slots and the feedback history (10_state R18). -/
def Channel.SameRun (a b : Channel) : Prop :=
  (∀ k, (a.slot.get k).SameRun (b.slot.get k)) ∧ a.fbHist0 = b.fbHist0 ∧ a.fbHist1 = b.fbHist1

theorem Slot.SameRun.refl (a : Slot) : a.SameRun a := ⟨rfl, rfl, rfl⟩
theorem Channel.SameRun.refl (a : Channel) : a.SameRun a := ⟨fun _ => .refl _, rfl, rfl⟩

/-- A write of parameter registers or latches: what runs in the channels, the address latches and the resampler stay,
written twice it is as written once, and it sees only what is visible. -/
structure ParamWrite (f : Chip → Chip) : Prop where
  rs : ∀ chip, (f chip).rs = chip.rs
  addrLatch : ∀ chip, (f chip).addrLatch = chip.addrLatch
  run : ∀ chip c, ((f chip).ch.get c).SameRun (chip.ch.get c)
  idem : ∀ chip, f (f chip) = f chip
  visible : ReadsVisible f

theorem ParamWrite.egState {f : Chip → Chip} (hf : ParamWrite f) (chip : Chip) (c : Chan) (k : SlotIx) :
    (((f chip).ch.get c).slot.get k).egState = ((chip.ch.get c).slot.get k).egState := by
  obtain ⟨hslot, -, -⟩ := hf.run chip c
  obtain ⟨-, heg, -⟩ := hslot k
  exact heg

/-- A write of parameter registers of one slot. -/
structure SlotParamWrite (f : Slot → Slot) : Prop where
  run : ∀ sl, (f sl).SameRun sl
  idem : ∀ sl, f (f sl) = f sl
  visible : ∀ sl, (f sl.visible).visible = (f sl).visible

/-- A write of parameter registers of one channel. -/
structure ChannelParamWrite (f : Channel → Channel) : Prop where
  run : ∀ ch, (f ch).SameRun ch
  idem : ∀ ch, f (f ch) = f ch
  visible : ∀ ch, (f ch.visible).visible = (f ch).visible

theorem Bank4.set_set {α : Type} (b : Bank4 α) (i : SlotIx) (x y : α) : (b.set i x).set i y = b.set i y := by
  fin_cases i <;> rfl

theorem Bank6.set_set {α : Type} (b : Bank6 α) (i : Chan) (x y : α) : (b.set i x).set i y = b.set i y := by
  fin_cases i <;> rfl

theorem Chip.modifyChannel_modifyChannel (chip : Chip) (c : Chan) (f h : Channel → Channel) :
    (chip.modifyChannel c f).modifyChannel c h = chip.modifyChannel c fun ch => h (f ch) := by
  simp [Chip.modifyChannel, Bank6.set_set]

theorem Channel.modifySlot_modifySlot (ch : Channel) (k : SlotIx) (f h : Slot → Slot) :
    (ch.modifySlot k f).modifySlot k h = ch.modifySlot k fun sl => h (f sl) := by
  simp [Channel.modifySlot, Bank4.set_set]

theorem Channel.modifySlot_visible (ch : Channel) (k : SlotIx) {f : Slot → Slot}
    (hf : ∀ sl, (f sl.visible).visible = (f sl).visible) :
    (ch.visible.modifySlot k f).visible = (ch.modifySlot k f).visible := by
  have hslot : (((ch.slot.map Slot.visible).set k (f (ch.slot.get k).visible)).map Slot.visible) =
      (ch.slot.set k (f (ch.slot.get k))).map Slot.visible := by
    apply Bank4.ext_get
    intro j
    simp only [Bank4.get_map, Bank4.get_set]
    split
    · exact hf _
    · rfl
  simp [Channel.visible, Channel.modifySlot, hslot]

@[simp] theorem Channel.visible_visible (ch : Channel) : ch.visible.visible = ch.visible := rfl

theorem Chip.modifyChannel_visible (chip : Chip) (c : Chan) {f : Channel → Channel}
    (hf : ∀ ch, (f ch.visible).visible = (f ch).visible) :
    (chip.visible.modifyChannel c f).visible = (chip.modifyChannel c f).visible := by
  have hch : (((chip.ch.map Channel.visible).set c (f (chip.ch.get c).visible)).map Channel.visible) =
      (chip.ch.set c (f (chip.ch.get c))).map Channel.visible := by
    apply Bank6.ext_get
    intro d
    simp only [Bank6.get_map, Bank6.get_set]
    split
    · exact hf _
    · exact Channel.visible_visible _
  simp [Chip.visible, Chip.modifyChannel, hch]

theorem readsVisible_modifySlot (c : Chan) (k : SlotIx) {f : Slot → Slot}
    (hf : ∀ sl, (f sl.visible).visible = (f sl).visible) : ReadsVisible fun chip => chip.modifySlot c k f :=
  fun chip => chip.modifyChannel_visible c fun ch => ch.modifySlot_visible k hf

/-- A write of one slot leaves the registers of every channel. -/
theorem Chip.modifySlot_sameRegs (chip : Chip) (c d : Chan) (k : SlotIx) (f : Slot → Slot) :
    ((chip.modifySlot c k f).ch.get d).SameRegs (chip.ch.get d) := by
  unfold Chip.modifySlot
  rw [Chip.modifyChannel_ch]
  split
  · subst_vars; simp [Channel.SameRegs]
  · simp [Channel.SameRegs]

theorem SlotParamWrite.paramWrite {f : Slot → Slot} (hf : SlotParamWrite f) (c : Chan) (k : SlotIx) :
    ParamWrite fun chip => chip.modifySlot c k f where
  rs _ := rfl
  addrLatch _ := rfl
  run chip d := by
    obtain ⟨_, _, _, _, _, _, _, _, h0, h1⟩ := chip.modifySlot_sameRegs c d k f
    refine ⟨fun j => ?_, h0, h1⟩
    rw [Chip.modifySlot_slot]
    split
    next h => rw [h.1, h.2]; exact hf.run _
    next => exact .refl _
  idem chip := by
    simp only [Chip.modifySlot, Chip.modifyChannel_modifyChannel, Channel.modifySlot_modifySlot, hf.idem]
  visible := readsVisible_modifySlot c k hf.visible

/-- A channel write may read the F-number latch, as that of the low frequency byte does (44 R165). -/
theorem ChannelParamWrite.paramWrite {f : BitVec 6 → Channel → Channel} (hf : ∀ latch, ChannelParamWrite (f latch))
    (c : Chan) : ParamWrite fun chip => chip.modifyChannel c (f chip.fnumLatch) where
  rs _ := rfl
  addrLatch _ := rfl
  run chip d := by
    rw [Chip.modifyChannel_ch]
    split
    next h => rw [h]; exact (hf _).run _
    next => exact .refl _
  idem chip := by
    simp only [Chip.modifyChannel_modifyChannel, Chip.modifyChannel_fnumLatch, (hf _).idem]
  visible chip := chip.modifyChannel_visible c (hf _).visible

/-- A write of the LFO register or the F-number latch, which leaves every channel. -/
theorem paramWrite_of_ch {f : Chip → Chip} (hch : ∀ chip, (f chip).ch = chip.ch) (hrs : ∀ chip, (f chip).rs = chip.rs)
    (hlatch : ∀ chip, (f chip).addrLatch = chip.addrLatch) (hidem : ∀ chip, f (f chip) = f chip)
    (hvisible : ReadsVisible f) : ParamWrite f :=
  ⟨hrs, hlatch, fun chip c => by rw [hch]; exact .refl _, hidem, hvisible⟩

/-- Every register write but a key write is a write of parameter registers or latches (44 R154 to R167). -/
theorem exec_paramWrite {i : Instr} (hi : i.isRegWrite = true) (hkey : ∀ v, i ≠ .wrKey v) :
    ∃ f, ParamWrite f ∧ ∀ s, exec i s = writeChip s f := by
  have hslot : ∀ (p : Part) (k : SlotIx) (n : PartChan) (f : Slot → Slot), SlotParamWrite f →
      (∀ s, exec i s = writeSlot s (chanOf p n) k f) → ∃ f, ParamWrite f ∧ ∀ s, exec i s = writeChip s f :=
    fun p k n f hf he => ⟨_, hf.paramWrite (chanOf p n) k, he⟩
  have hchan : ∀ (p : Part) (n : PartChan) (f : BitVec 6 → Channel → Channel), (∀ latch, ChannelParamWrite (f latch)) →
      (∀ s, exec i s = writeChannel s (chanOf p n) (f s.chip.fnumLatch)) →
      ∃ f, ParamWrite f ∧ ∀ s, exec i s = writeChip s f :=
    fun p n f hf he => ⟨_, ChannelParamWrite.paramWrite hf (chanOf p n), he⟩
  cases i with
  | wrKey v => exact absurd rfl (hkey v)
  | wrLfo v =>
    refine ⟨fun chip => { chip with lfoEnable := v.getLsbD 3, lfoFreq := v.extractLsb' 0 3 }, ?_, fun _ => rfl⟩
    apply paramWrite_of_ch <;> exact fun _ => rfl
  | wrFnhi p n v =>
    refine ⟨fun chip => { chip with fnumLatch := v.extractLsb' 0 6 }, ?_, fun _ => rfl⟩
    apply paramWrite_of_ch <;> exact fun _ => rfl
  | wrIgnored p r v =>
    refine ⟨fun chip => chip, ?_, fun _ => rfl⟩
    apply paramWrite_of_ch <;> exact fun _ => rfl
  | wrDtmul p k n v | wrTl p k n v | wrKsar p k n v | wrAmdr p k n v | wrSr p k n v | wrSlrr p k n v
  | wrSsgeg p k n v =>
    refine hslot p k n _ ?_ fun _ => rfl
    exact ⟨fun _ => .refl _, fun _ => rfl, fun _ => rfl⟩
  | wrFnlo p n v =>
    refine hchan p n (fun latch ch =>
      { ch with block := latch.extractLsb' 3 3, fnum := latch.extractLsb' 0 3 ++ v }) ?_ fun _ => rfl
    exact fun _ => ⟨fun _ => .refl _, fun _ => rfl, fun _ => rfl⟩
  | wrFbalg p n v | wrPansens p n v =>
    refine hchan p n (fun _ => _) ?_ fun _ => rfl
    exact fun _ => ⟨fun _ => .refl _, fun _ => rfl, fun _ => rfl⟩
  | aw | dw | tick | hout | reset | kill => cases hi

/-! ## Key writes (44 R156) -/

/-- The block after a key write. -/
def keyEffect (v : Byte) (chip : Chip) : Chip :=
  match keyChannel (v.extractLsb' 0 3) with
  | none => chip
  | some c => keyEvents cfg c v chip

theorem exec_wrKey (v : Byte) (s : State) : exec (.wrKey v) s = writeChip s (keyEffect v) := rfl

theorem keyIndex_toNat (v : Byte) : (v.extractLsb' 0 3).toNat = v.toNat % 8 := by simp

/-- The channel that a key write addresses, as a number. -/
theorem keyChannel_eq_some (v : Byte) (c : Chan) :
    keyChannel (v.extractLsb' 0 3) = some c ↔
      v.toNat % 4 ≠ 3 ∧ c.val = 3 * (v.toNat / 4 % 2) + v.toNat % 4 := by
  have htable : ∀ (idx : BitVec 3) (c : Chan),
      keyChannel idx = some c ↔ idx.toNat % 4 ≠ 3 ∧ c.val = 3 * (idx.toNat / 4) + idx.toNat % 4 := by decide
  rw [htable, keyIndex_toNat, show v.toNat % 8 % 4 = v.toNat % 4 by omega, show v.toNat % 8 / 4 = v.toNat / 4 % 2 by omega]

theorem keyChannel_eq_none (v : Byte) : keyChannel (v.extractLsb' 0 3) = none ↔ v.toNat % 4 = 3 := by
  have htable : ∀ idx : BitVec 3, keyChannel idx = none ↔ idx.toNat % 4 = 3 := by decide
  rw [htable, keyIndex_toNat, show v.toNat % 8 % 4 = v.toNat % 4 by omega]

theorem keyEffect_none {v : Byte} (h : keyChannel (v.extractLsb' 0 3) = none) (chip : Chip) :
    keyEffect v chip = chip := by
  simp [keyEffect, h]

theorem keyEffect_some {v : Byte} {c : Chan} (h : keyChannel (v.extractLsb' 0 3) = some c) (chip : Chip) :
    keyEffect v chip = keyEvents cfg c v chip := by
  simp [keyEffect, h]

/-- A key write writes the slots of the channels alone. -/
theorem keyEffect_eq (v : Byte) (chip : Chip) : keyEffect v chip = { chip with ch := (keyEffect v chip).ch } := by
  unfold keyEffect
  split <;> rfl

@[simp] theorem keyEffect_addrLatch (v : Byte) (chip : Chip) : (keyEffect v chip).addrLatch = chip.addrLatch := by
  rw [keyEffect_eq]

@[simp] theorem keyEffect_rs (v : Byte) (chip : Chip) : (keyEffect v chip).rs = chip.rs := by
  rw [keyEffect_eq]

theorem keyEffect_slot (v : Byte) (chip : Chip) (c : Chan) (k : SlotIx) :
    ((keyEffect v chip).ch.get c).slot.get k =
      if keyChannel (v.extractLsb' 0 3) = some c then keySlot cfg v k ((chip.ch.get c).slot.get k)
      else (chip.ch.get c).slot.get k := by
  cases h : keyChannel (v.extractLsb' 0 3) with
  | none => simp [keyEffect_none h]
  | some d => simp [keyEffect_some h, keyEvents_slot, @eq_comm _ c d]

theorem slot_keyEffect (v : Byte) (s : State) (c : Chan) (k : SlotIx) :
    (s.withChip (keyEffect v s.chip)).slot c k =
      if keyChannel (v.extractLsb' 0 3) = some c then keySlot cfg v k (s.slot c k) else s.slot c k :=
  keyEffect_slot v s.chip c k

/-- A key write leaves the registers of every channel. -/
theorem keyEffect_channel (v : Byte) (chip : Chip) (c : Chan) :
    (keyEffect v chip).ch.get c = { chip.ch.get c with slot := ((keyEffect v chip).ch.get c).slot } := by
  cases h : keyChannel (v.extractLsb' 0 3) with
  | none => rw [keyEffect_none h]
  | some d =>
    rw [keyEffect_some h]
    by_cases hd : c = d
    · subst hd; exact keyEvents_channel cfg c v chip
    · rw [keyEvents_channel_ne cfg hd]

/-- An event leaves a slot keyed as it asks, so delivering it again does nothing (40 R92, R93). -/
theorem keySlot_idem (v : Byte) (k : SlotIx) (sl : Slot) :
    keySlot cfg v k (keySlot cfg v k sl) = keySlot cfg v k sl := by
  unfold keySlot
  cases hk : sl.egState.keyed <;> split
  · rw [keyOn_unkeyed cfg hk, keyOn_keyed cfg (by rfl)]
  · rw [keyOff_unkeyed hk, keyOff_unkeyed hk]
  · rw [keyOn_keyed cfg hk, keyOn_keyed cfg hk]
  · rw [keyOff_keyed hk, keyOff_unkeyed (by rfl)]

theorem keyEffect_idem (v : Byte) (chip : Chip) : keyEffect v (keyEffect v chip) = keyEffect v chip := by
  have hslot : ∀ c, ((keyEffect v (keyEffect v chip)).ch.get c).slot = ((keyEffect v chip).ch.get c).slot := by
    intro c
    apply Bank4.ext_get
    intro k
    rw [keyEffect_slot, keyEffect_slot]
    split
    · exact keySlot_idem v k _
    · rfl
  have hch : (keyEffect v (keyEffect v chip)).ch = (keyEffect v chip).ch := by
    apply Bank6.ext_get
    intro c
    rw [keyEffect_channel, hslot c]
  rw [keyEffect_eq, hch]

theorem keyEvent_readsVisible (c : Chan) (v : Byte) (op : Op) :
    ReadsVisible fun chip => keyEvent cfg c v chip op := by
  refine readsVisible_modifySlot c (slotOfOp op) fun sl => ?_
  unfold keyOn keyOff
  cases h : sl.egState <;> cases keyBit v op <;> simp [Slot.visible, EgState.keyed, h]

theorem keyEffect_readsVisible (v : Byte) : ReadsVisible (keyEffect v) := by
  unfold keyEffect
  split
  · exact fun _ => rfl
  next c _ =>
    exact (keyEvent_readsVisible c v .op4).comp <| (keyEvent_readsVisible c v .op3).comp <|
      (keyEvent_readsVisible c v .op2).comp (keyEvent_readsVisible c v .op1)

/-! ## The other writes of the block as functions on it -/

theorem exec_aw (p : Part) (v : Byte) (s : State) :
    exec (.aw p v) s = writeChip s fun chip => { chip with addrLatch := chip.addrLatch.set p v } := rfl

/-- The block after `KILL` (47 R212). -/
def killed (chip : Chip) : Chip :=
  { chip with ch := chip.ch.map fun ch => { ch with slot := ch.slot.map (silence cfg) } }

theorem exec_kill (s : State) : exec .kill s = writeChip s killed := rfl

theorem exec_wrLfo (v : Byte) (s : State) :
    exec (.wrLfo v) s = writeChip s fun chip =>
      { chip with lfoEnable := v.getLsbD 3, lfoFreq := v.extractLsb' 0 3 } := rfl

theorem exec_wrFnhi (p : Part) (n : PartChan) (v : Byte) (s : State) :
    exec (.wrFnhi p n v) s = writeChip s fun chip => { chip with fnumLatch := v.extractLsb' 0 6 } := rfl

theorem exec_wrIgnored (p : Part) (reg v : Byte) (s : State) :
    exec (.wrIgnored p reg v) s = writeChip s fun chip => chip := rfl

/-! ## Register writes and data writes -/

/-- A register write is a parameter write or a key write. -/
theorem exec_regWrite {i : Instr} (hi : i.isRegWrite = true) :
    ∃ f, (∀ s, exec i s = writeChip s f) ∧ (ParamWrite f ∨ ∃ v, i = .wrKey v ∧ f = keyEffect v) := by
  by_cases hkey : ∃ v, i = .wrKey v
  · obtain ⟨v, rfl⟩ := hkey
    exact ⟨keyEffect v, exec_wrKey v, .inr ⟨v, rfl, rfl⟩⟩
  · obtain ⟨f, hf, he⟩ := exec_paramWrite hi fun v hv => hkey ⟨v, hv⟩
    exact ⟨f, he, .inl hf⟩

/-- Every register write leaves the address latches, written twice is as written once, and sees only what is visible. -/
theorem exec_regWrite_frame {i : Instr} (hi : i.isRegWrite = true) :
    ∃ f, (∀ s, exec i s = writeChip s f) ∧ (∀ chip, (f chip).addrLatch = chip.addrLatch) ∧
      (∀ chip, f (f chip) = f chip) ∧ ReadsVisible f := by
  obtain ⟨f, he, hf | ⟨v, -, rfl⟩⟩ := exec_regWrite hi
  · exact ⟨f, he, hf.addrLatch, hf.idem, hf.visible⟩
  · exact ⟨_, he, keyEffect_addrLatch v, keyEffect_idem v, keyEffect_readsVisible v⟩

theorem exec_dead {i : Instr} {s : State} (hl : s.live = false) (hi : i ≠ .reset) :
    exec i s = .fault .beforeReset := by
  cases i with
  | reset => exact absurd rfl hi
  | _ => exact whenLive_dead hl _

theorem live_of_exec_next {i : Instr} {s t : State} (h : exec i s = .next t) (hi : i ≠ .reset) : s.live = true := by
  by_contra hl
  rw [exec_dead (by simpa using hl) hi] at h
  cases h

/-- Operation `i` in state `s` is a key write of the byte `v`, as itself or as a data write that decodes into it. -/
def IsKeyWrite (i : Instr) (s : State) (v : Byte) : Prop :=
  i = .wrKey v ∨ ∃ p, i = .dw p v ∧ decodeRegWord (mkRegWord p (s.chip.addrLatch.get p) v) = .wrKey v

/-- The byte of a key write that a data write decodes into is the data write's. -/
theorem decodeReg_wrKey {p : Part} {r v v' : Byte} (h : decodeReg p r v = .wrKey v') :
    p = .part0 ∧ r = 0x28#8 ∧ v' = v := by
  have he := encode_decodeReg p r v
  rw [h] at he
  obtain ⟨hp, hr, hv⟩ := mkRegWord_inj (Encoded.regWord.inj he)
  exact ⟨hp.symm, hr.symm, hv⟩

/-! ## What a completed operation has done -/

/-- The next states of the operations, one case for each way in which they change the state. -/
inductive Effect (i : Instr) (s : State) : State → Prop
  | address (p : Part) (v : Byte) (hi : i = .aw p v) :
      Effect i s (s.withChip { s.chip with addrLatch := s.chip.addrLatch.set p v })
  | params (f : Chip → Chip) (hf : ParamWrite f) (hi : i.isRegWrite = true ∨ ∃ p v, i = .dw p v) :
      Effect i s (s.withChip (f s.chip))
  | key (v : Byte) (hi : IsKeyWrite i s v) : Effect i s (s.withChip (keyEffect v s.chip))
  | tick (hi : i = .tick) (h : admission cfg s.chip = none) :
      Effect i s { s with chip := (tickChip cfg s.chip).1, outputs := s.outputs ++ [(tickChip cfg s.chip).2] }
  | hout (ratio : Ratio) (hi : i = .hout ratio) (u : Chip) (h : pull cfg (ticksDue cfg s.chip) s.chip = .ok u) :
      Effect i s { s with chip := { u with rs := u.rs.advance ratio.toNat }, outputs := s.outputs ++ [u.rs.output cfg] }
  | reset (hi : i = .reset) : Effect i s { s with chip := resetChip cfg, live := true }
  | kill (hi : i = .kill) : Effect i s (s.withChip (killed s.chip))

theorem exec_regWrite_effect {i j : Instr} {s t : State} (hj : j.isRegWrite = true) (h : exec j s = .next t)
    (hi : i.isRegWrite = true ∨ ∃ p v, i = .dw p v) (hkey : ∀ v, j = .wrKey v → IsKeyWrite i s v) : Effect i s t := by
  obtain ⟨f, he, hf⟩ := exec_regWrite hj
  obtain ⟨-, rfl⟩ := writeChip_next.1 ((he s).symm.trans h)
  obtain hf | ⟨v, hv, rfl⟩ := hf
  · exact .params f hf hi
  · exact .key v (hkey v hv)

theorem exec_effect {i : Instr} {s t : State} (h : exec i s = .next t) : Effect i s t := by
  have hreg : ∀ j : Instr, j.isRegWrite = true → exec j s = .next t → Effect j s t :=
    fun j hj hx => exec_regWrite_effect hj hx (.inl hj) fun _ => .inl
  cases i with
  | aw p v =>
    obtain ⟨-, rfl⟩ := writeChip_next.1 ((exec_aw p v s).symm.trans h)
    exact .address p v rfl
  | dw p v =>
    rw [exec_dw_eq p v s (live_of_exec_next h (by simp))] at h
    refine exec_regWrite_effect (decodeReg_isRegWrite _ _ _) h (.inr ⟨p, v, rfl⟩) fun v' hv => ?_
    obtain ⟨-, -, rfl⟩ := decodeReg_wrKey hv
    exact .inr ⟨p, rfl, by rw [decodeRegWord_mk, hv]⟩
  | tick =>
    obtain ⟨-, ha, rfl⟩ := exec_tick_next.1 h
    exact .tick rfl ha
  | hout ratio =>
    obtain ⟨-, u, hu, rfl⟩ := exec_hout_next.1 h
    exact .hout ratio rfl u hu
  | reset => cases h; exact .reset rfl
  | kill =>
    obtain ⟨-, rfl⟩ := writeChip_next.1 ((exec_kill s).symm.trans h)
    exact .kill rfl
  | _ => exact hreg _ rfl h

/-! ## Refusals -/

/-- The loop of `HOUT` completes, or its first tick is refused by one of the two policies (45 R191, 46 R202). -/
theorem pull_cases (n : Nat) (chip : Chip) :
    (∃ u, pull cfg n chip = .ok u) ∨
    (pull cfg n chip = .error .lfoNotInSource ∧ chip.lfoEnable = true) ∨
    (pull cfg n chip = .error .ssgNotInSource ∧ chip.anySsg = true) := by
  cases n with
  | zero => exact .inl ⟨chip, rfl⟩
  | succ n =>
    obtain ⟨-, ha⟩ | ⟨ht, hl, -⟩ | ⟨ht, hs, -⟩ := tick_cases cfg chip
    · exact .inl ⟨_, pull_admitted cfg _ _ ha⟩
    · exact .inr (.inl ⟨by simp [pull, ht], hl⟩)
    · exact .inr (.inr ⟨by simp [pull, ht], hs⟩)

theorem exec_tick_live {s : State} (hl : s.live = true) : exec .tick s = answer s (tick cfg s.chip) :=
  whenLive_live hl _

theorem exec_hout_live {s : State} (hl : s.live = true) (ratio : Ratio) :
    exec (.hout ratio) s = answer s (hout cfg ratio.toNat s.chip) := whenLive_live hl _

theorem writeChip_live {s : State} (hl : s.live = true) (f : Chip → Chip) :
    writeChip s f = .next (s.withChip (f s.chip)) := whenLive_live hl _

/-! ## The statements on steps and outcomes -/

theorem step_of_request {s : State} {r : Request} {rest : List Request} (h : s.inputs = r :: rest) :
    step s = retire (exec (decodeRequest r) s) := by
  simp [step, State.fetch, h]

/-- Settles O5 (60_exceptions R226): a step retires the operation of the oldest request. -/
theorem stepPerformsOldestRequest : Obligations.StepPerformsOldestRequest := by
  intro s r rest hs
  rw [step_of_request hs]
  refine ⟨fun t ht => ?_, fun f hf => ?_, fun f hf => ?_⟩
  · have hin : t.inputs = r :: rest := (exec_inputs ht).trans hs
    simp [ht, retire, State.dropInput, hin]
  · rw [hf, retire]
  · rw [hf, retire]

/-- Settles O6 (60_exceptions R226). -/
theorem stepWithoutRequestIdles : Obligations.StepWithoutRequestIdles := by
  intro s hs
  obtain ⟨-, h⟩ | ⟨r, rest, hr, -⟩ := step_cases s
  · exact h
  · rw [hs] at hr; cases hr

/-- Settles O8 (60_exceptions R222, 45 R191): writes, `RESET` and `KILL` complete; a tick is refused by its policies
alone. -/
theorem onlyTicksAreRefused : Obligations.OnlyTicksAreRefused := by
  intro i s hl
  have hreg : ∀ j : Instr, j.isRegWrite = true → ∃ t, exec j s = .next t := fun j hj => by
    obtain ⟨f, he, -⟩ := exec_regWrite hj
    exact ⟨_, (he s).trans (writeChip_live hl f)⟩
  cases i with
  | tick =>
    obtain ⟨ht, -⟩ | ⟨ht, hlfo, -⟩ | ⟨ht, hssg, -⟩ := tick_cases cfg s.chip
    · exact .inl ⟨_, by rw [exec_tick_live hl, ht]; rfl⟩
    · exact .inr ⟨.inl rfl, .inl ⟨hlfo, by rw [exec_tick_live hl, ht]; rfl⟩⟩
    · exact .inr ⟨.inl rfl, .inr ⟨s.chip.anySsg_eq_true.1 hssg, by rw [exec_tick_live hl, ht]; rfl⟩⟩
  | hout ratio =>
    obtain ⟨u, hu⟩ | ⟨hp, hlfo⟩ | ⟨hp, hssg⟩ := pull_cases (ticksDue cfg s.chip) s.chip
    · exact .inl ⟨_, exec_hout_next.2 ⟨hl, u, hu, rfl⟩⟩
    · exact .inr ⟨.inr ⟨ratio, rfl⟩, .inl ⟨hlfo, by simp [exec_hout_live hl, hout, hp, answer]⟩⟩
    · exact .inr ⟨.inr ⟨ratio, rfl⟩,
        .inr ⟨s.chip.anySsg_eq_true.1 hssg, by simp [exec_hout_live hl, hout, hp, answer]⟩⟩
  | dw p v =>
    rw [exec_dw_eq p v s hl]
    exact .inl (hreg _ (decodeReg_isRegWrite _ _ _))
  | aw p v => exact .inl ⟨_, (exec_aw p v s).trans (writeChip_live hl _)⟩
  | reset => exact .inl ⟨_, rfl⟩
  | kill => exact .inl ⟨_, (exec_kill s).trans (writeChip_live hl _)⟩
  | _ => exact .inl (hreg _ rfl)

/-- Settles O7 (70_reset R240): before the first `RESET` the guard faults, afterwards every operation completes or is
refused. -/
theorem faultExactlyBeforeReset : Obligations.FaultExactlyBeforeReset := by
  intro i s
  constructor
  · rintro ⟨f, hf⟩
    have hi : i ≠ .reset := by rintro rfl; cases hf
    refine ⟨?_, hi⟩
    by_contra hl
    obtain ⟨t, ht⟩ | ⟨-, ⟨-, hr⟩ | ⟨-, hr⟩⟩ := onlyTicksAreRefused i s (by simpa using hl)
    · rw [hf] at ht; cases ht
    · rw [hf] at hr; cases hr
    · rw [hf] at hr; cases hr
  · rintro ⟨hl, hi⟩
    exact ⟨_, exec_dead hl hi⟩

/-- Settles O9 (70_reset R252): by the effect of the operation. -/
theorem oneSamplePairPerTickOrHout : Obligations.OneSamplePairPerTickOrHout := by
  intro i s t h
  cases exec_effect h with
  | tick hi h => subst hi; simp
  | hout ratio hi u h => subst hi; simp
  | address p v hi => subst hi; simp
  | params f hf hi =>
    refine ⟨?_, fun _ => rfl⟩
    rintro (rfl | ⟨ratio, rfl⟩) <;> simp [Instr.isRegWrite] at hi
  | key v hi =>
    refine ⟨?_, fun _ => rfl⟩
    rintro (rfl | ⟨ratio, rfl⟩) <;> simp [IsKeyWrite] at hi
  | reset hi => subst hi; simp
  | kill hi => subst hi; simp

/-! ## The statements on the bus -/

/-- Settles O16 (44 R150). -/
theorem addressWriteLatches : Obligations.AddressWriteLatches := by
  intro p v s hl
  refine ⟨decodeBus_address p v, _, (exec_aw p v s).trans (writeChip_live hl _), ?_, fun q hq => ?_, rfl⟩
  · simp
  · exact Bank2.get_set_ne _ v hq

/-- Settles O17 (44 R151, R152). -/
theorem dataWritePerformsDecodedWrite : Obligations.DataWritePerformsDecodedWrite := by
  intro p v s hl
  obtain ⟨f, he, hlatch, -⟩ := exec_regWrite_frame (decodeReg_isRegWrite p (s.chip.addrLatch.get p) v)
  have ht := (he s).trans (writeChip_live hl f)
  refine ⟨decodeBus_data p v, _, (exec_dw_eq p v s hl).trans ht, ?_, hlatch _⟩
  rw [decodeRegWord_mk]
  exact ht

/-- Settles O18 (20_memory R47): the write repeated decodes into the same register write, and every write's function
on the block is idempotent. -/
theorem busWritesAreIdempotent : Obligations.BusWritesAreIdempotent := by
  rintro i s t ⟨p, v, rfl | rfl⟩ h
  · rw [exec_aw] at h ⊢
    obtain ⟨hl, rfl⟩ := writeChip_next.1 h
    refine writeChip_next.2 ⟨hl, ?_⟩
    cases p <;> rfl
  · have hl := live_of_exec_next h (by simp)
    obtain ⟨f, he, hlatch, hidem, -⟩ := exec_regWrite_frame (decodeReg_isRegWrite p (s.chip.addrLatch.get p) v)
    rw [exec_dw_eq p v s hl, he] at h
    obtain ⟨-, rfl⟩ := writeChip_next.1 h
    rw [exec_dw_eq p v _ (by exact hl), State.withChip_chip, hlatch, he]
    refine writeChip_next.2 ⟨hl, ?_⟩
    simp [State.withChip, hidem]

/-- Settles O19 (44 R154). -/
theorem ignoredWriteChangesNothing : Obligations.IgnoredWriteChangesNothing := by
  intro p reg v s hl
  exact (exec_wrIgnored p reg v s).trans (writeChip_live hl _)

/-! ## The statements on the global registers and the frequency latch -/

/-- Settles O20 (44 R155). -/
theorem lfoWrite : Obligations.LfoWrite := by
  intro v s hl
  refine ⟨_, (exec_wrLfo v s).trans (writeChip_live hl _), ?_, ?_, rfl⟩
  · change v.getLsbD 3 = true ↔ v.toNat / 8 % 2 = 1
    rw [byteBit_eq_div_mod]
    exact decide_eq_true_iff
  · simp [State.withChip]

/-- Settles O29 (44 R164). -/
theorem fnumHighWriteLatches : Obligations.FnumHighWriteLatches := by
  intro p n v s hl
  refine ⟨_, (exec_wrFnhi p n v s).trans (writeChip_live hl _), ?_, rfl⟩
  simp [State.withChip]

/-- Settles O30 (44 R165): the channel write with block and F-number read as numbers. -/
theorem fnumLowWriteApplies : Obligations.FnumLowWriteApplies := by
  intro p n v s c hl hc
  have hblock : s.chip.fnumLatch.extractLsb' 3 3 = BitVec.ofNat 3 (s.chip.fnumLatch.toNat / 8) := by
    apply BitVec.eq_of_toNat_eq
    simp [Nat.shiftRight_eq_div_pow]
  have hfnum : s.chip.fnumLatch.extractLsb' 0 3 ++ v =
      BitVec.ofNat 11 (256 * (s.chip.fnumLatch.toNat % 8) + v.toNat) := by
    apply BitVec.eq_of_toNat_eq
    have hv : v.toNat < 2 ^ 8 := v.isLt
    rw [BitVec.toNat_append, ← Nat.shiftLeft_add_eq_or_of_lt hv, Nat.shiftLeft_eq]
    simp
    omega
  rw [← hblock, ← hfnum]
  exact writeChannel_chanOf_written hl hc _

/-- Settles O32 (44 R167): the channel write with its four fields read as bits and numbers. -/
theorem panSensitivityWrite : Obligations.PanSensitivityWrite := by
  intro p n v s c hl hc
  have hpanR : v.getLsbD 6 = decide (v.toNat / 64 % 2 = 1) := byteBit_eq_div_mod v 6
  have hams : v.extractLsb' 4 2 = BitVec.ofNat 2 (v.toNat / 16) := byteField_eq_div v 4 2
  have hfms : v.extractLsb' 0 3 = BitVec.ofNat 3 (v.toNat % 8) := byteField_low_eq_mod v 3
  rw [← byteBit_seven_eq_le, ← hpanR, ← hams, ← hfms]
  exact writeChannel_chanOf_written hl hc _

/-- Settles O21 (44 R156): one event to each slot of the channel addressed. -/
theorem keyWrite : Obligations.KeyWrite := by
  intro v s hl
  refine ⟨_, (exec_wrKey v s).trans (writeChip_live hl _), fun h3 => ?_, fun h3 => ?_⟩
  · rw [keyEffect_none ((keyChannel_eq_none v).2 h3)]
    rfl
  · obtain ⟨c, hc⟩ : ∃ c, keyChannel (v.extractLsb' 0 3) = some c :=
      Option.ne_none_iff_exists'.1 fun h => h3 ((keyChannel_eq_none v).1 h)
    refine ⟨c, ((keyChannel_eq_some v c).1 hc).2, fun k => ?_, fun c' hc' => ?_, ?_, ?_⟩
    · simp only [State.slot, State.channel, State.withChip_chip, keyEffect_slot, if_pos hc, keySlot, keyOn, keyOff,
        ← EgState.keyed_eq_false, cfg_envTop]
      split <;> cases ((s.chip.ch.get c).slot.get k).egState.keyed <;> simp
    · simp only [State.channel, State.withChip_chip, keyEffect_some hc, keyEvents_channel_ne cfg hc']
    · simp only [State.channel, State.withChip_chip]
      rw [keyEffect_channel]
      simp [Channel.SameRegs]
    · simp only [State.SameOutside, State.withChip_chip]
      rw [keyEffect_eq]
      simp

end Sys2Proof.Machine

/-!
The envelope generator (40_envelope): the increment in closed form, and the step of one envelope by its state.
-/

namespace Sys2Proof.Machine

/-! ## The increment (40 R86 to R88) -/

/-- `ENV_TOP` is `1536 * 2^18`, so the division by the completion samples is exact. -/
theorem envTop_div_completionSamples {k : Nat} (hk : k ≤ 63) :
    cfg.envTop / completionSamples k = 1536 * 2 ^ (k / 4) := by
  have hq : k >>> 2 = k / 4 := Nat.shiftRight_eq_div_pow k 2
  have hpow : 2 ^ (k / 4) * 2 ^ (18 - k / 4) = 2 ^ 18 := by
    rw [← Nat.pow_add]
    congr 1
    omega
  rw [completionSamples, hq]
  apply Nat.div_eq_of_eq_mul_left (Nat.two_pow_pos _)
  rw [Nat.mul_assoc, hpow]
  rfl

theorem egInc_eq (r5 : Nat) (ks : BitVec 2) (kc : BitVec 5) :
    egInc cfg r5 ks kc =
      if r5 = 0 then 0 else 1536 * 2 ^ (min 63 (2 * r5 + kc.toNat / 2 ^ (3 - ks.toNat)) / 4) := by
  have hshift : cfg.kcShift ks kc = kc.toNat / 2 ^ (3 - ks.toNat) := Nat.shiftRight_eq_div_pow _ _
  unfold egInc ksr
  rw [hshift]
  by_cases h0 : r5 = 0
  · simp [h0]
  · have hk : min 63 (2 * r5 + kc.toNat / 2 ^ (3 - ks.toNat)) ≠ 0 := by omega
    simp only [if_neg h0, if_neg hk]
    exact envTop_div_completionSamples (Nat.min_le_left _ _)

/-! ## One envelope (40 R95 to R100) -/

section
variable (g : Cfg) (kc : BitVec 5) {sl : Slot}

theorem egTick_attack (h : sl.egState = .attack) : egTick g kc sl = egAttack g kc sl := by simp [egTick, h]
theorem egTick_decay (h : sl.egState = .decay) : egTick g kc sl = egDecay g kc sl := by simp [egTick, h]
theorem egTick_sustain (h : sl.egState = .sustain) : egTick g kc sl = egSustain g kc sl := by simp [egTick, h]
theorem egTick_release (h : sl.egState = .release) : egTick g kc sl = egRelease g kc sl := by simp [egTick, h]
theorem egTick_off (h : sl.egState = .off) : egTick g kc sl = sl := by simp [egTick, h]

end

theorem egSustain_egState (g : Cfg) (kc : BitVec 5) (sl : Slot) : (egSustain g kc sl).egState = sl.egState := rfl

/-- The sustain levels as attenuations (40 R90). -/
theorem slAtt_eq (l : BitVec 4) : cfg.slAtt l = if l.toNat = 15 then 5952 else 192 * l.toNat := by
  have hl : l.toNat < 16 := l.isLt
  change (if l.toNat < 15 then l.toNat * 192 else 5952) = _
  split <;> split <;> omega

theorem shiftRight_sixteen (acc : Nat) : acc >>> 16 = acc / 65536 := Nat.shiftRight_eq_div_pow acc 16

/-- Transitions of a tick: at most one, on the accumulator after the step (40 R82, R96 to R100). -/
theorem egTick_transition (kc : BitVec 5) (sl : Slot) :
    (egTick cfg kc sl).egState = sl.egState ∨
    (sl.egState = .attack ∧ (egTick cfg kc sl).envAcc / 65536 = 0 ∧ (egTick cfg kc sl).egState = .decay) ∨
    (sl.egState = .decay ∧
      (if sl.sl.toNat = 15 then 5952 else 192 * sl.sl.toNat) ≤ (egTick cfg kc sl).envAcc / 65536 ∧
      (egTick cfg kc sl).egState = .sustain) ∨
    (sl.egState = .release ∧ (egTick cfg kc sl).envAcc = cfg.envTop ∧ (egTick cfg kc sl).egState = .off) := by
  rw [← slAtt_eq]
  cases h : sl.egState with
  | attack =>
    simp only [egTick_attack cfg kc h, egAttack, shiftRight_sixteen, h]
    split <;> simp_all
  | decay =>
    simp only [egTick_decay cfg kc h, egDecay, shiftRight_sixteen, h]
    split <;> simp_all
  | sustain => exact .inl (by rw [egTick_sustain cfg kc h, egSustain_egState, h])
  | release =>
    simp only [egTick_release cfg kc h, egRelease, h]
    split <;> simp_all
  | off => exact .inl (by rw [egTick_off cfg kc h, h])

theorem egTick_attack_falls (kc : BitVec 5) {sl : Slot} (h : sl.egState = .attack) :
    (egTick cfg kc sl).envAcc ≤ sl.envAcc := by
  rw [egTick_attack cfg kc h]
  exact Nat.sub_le _ _

/-- The three rising states step by one clamped addition (40 R97 to R99). -/
theorem egTick_rises (kc : BitVec 5) {sl : Slot}
    (h : sl.egState = .decay ∨ sl.egState = .sustain ∨ sl.egState = .release) :
    ∃ inc, (egTick cfg kc sl).envAcc = min cfg.envTop (sl.envAcc + inc) := by
  obtain h | h | h := h
  · rw [egTick_decay cfg kc h]; exact ⟨_, rfl⟩
  · rw [egTick_sustain cfg kc h]; exact ⟨_, rfl⟩
  · rw [egTick_release cfg kc h]; exact ⟨_, rfl⟩

/-- A tick keeps the range of the accumulator, and only a slot at `ENV_TOP` is Off (10_state R16, R17). -/
theorem egTick_inv (kc : BitVec 5) {sl : Slot} (h : sl.Inv) : (egTick cfg kc sl).Inv := by
  obtain ⟨hle, hoff⟩ := h
  have htrans := egTick_transition kc sl
  cases he : sl.egState with
  | attack =>
    refine ⟨(egTick_attack_falls kc he).trans hle, fun ho => ?_⟩
    simp [ho, he] at htrans
  | decay =>
    obtain ⟨inc, hinc⟩ := egTick_rises kc (.inl he)
    refine ⟨hinc ▸ Nat.min_le_left _ _, fun ho => ?_⟩
    simp [ho, he] at htrans
  | sustain =>
    obtain ⟨inc, hinc⟩ := egTick_rises kc (.inr (.inl he))
    refine ⟨hinc ▸ Nat.min_le_left _ _, fun ho => ?_⟩
    simp [ho, he] at htrans
  | release =>
    obtain ⟨inc, hinc⟩ := egTick_rises kc (.inr (.inr he))
    refine ⟨hinc ▸ Nat.min_le_left _ _, fun ho => ?_⟩
    simpa [ho, he] using htrans
  | off =>
    rw [egTick_off cfg kc he]
    exact ⟨hle, hoff⟩

/-! ## Ready states, and the slots after a tick -/

theorem Chip.Admitted.admission {chip : Chip} (h : chip.Admitted) : admission cfg chip = none := by
  obtain ⟨hlfo, hssg⟩ := h
  have hany : chip.anySsg = false := by
    rw [← Bool.not_eq_true, Chip.anySsg_eq_true]
    rintro ⟨c, k, hck⟩
    rw [hssg c k] at hck
    cases hck
  simp [Machine.admission, hlfo, hany]

/-- A `TICK` of a ready state completes (45 R190). -/
theorem exec_tick_ready {s : State} (h : s.Ready) :
    exec .tick s =
      .next { s with chip := (tickChip cfg s.chip).1, outputs := s.outputs ++ [(tickChip cfg s.chip).2] } :=
  exec_tick_next.2 ⟨h.1, h.2.admission, rfl⟩

theorem exec_tick_channel {s t : State} (h : exec .tick s = .next t) (c : Chan) :
    t.channel c = (tickChannel cfg (s.channel c)).1 := by
  obtain ⟨-, -, rfl⟩ := exec_tick_next.1 h
  exact tickChip_ch cfg s.chip c

theorem exec_tick_slot {s t : State} (h : exec .tick s = .next t) (c : Chan) (k : SlotIx) :
    t.slot c k = advancePhase cfg (s.channel c) (egTick cfg (keyCode cfg (s.channel c)) (s.slot c k)) := by
  rw [State.slot, exec_tick_channel h, tickChannel_slot]
  rfl

/-! ## The statements -/

/-- Settles O34 (40 R86 to R88). -/
theorem envelopeIncrementRule : Obligations.EnvelopeIncrementRule := egInc_eq

/-- Settles O35 (40 R101): the exponent of the closed form rises with the rate. -/
theorem envelopeIncrementMonotone : Obligations.EnvelopeIncrementMonotone := by
  refine ⟨fun r r' ks kc h1 hr _ => ?_, fun k k' _ hk h63 => ?_⟩
  · rw [egInc_eq, egInc_eq, if_neg (by omega), if_neg (by omega)]
    refine Nat.mul_le_mul_left _ (Nat.pow_le_pow_right (by decide) (Nat.div_le_div_right ?_))
    omega
  · rw [envTop_div_completionSamples (hk.trans h63), envTop_div_completionSamples h63]
    exact Nat.mul_le_mul_left _ (Nat.pow_le_pow_right (by decide) (Nat.div_le_div_right hk))

/-- Settles O36 (40 R95 to R100): one case for each state. -/
theorem tickEnvelopeStep : Obligations.TickEnvelopeStep := by
  intro s hs
  have ht := exec_tick_ready hs
  refine ⟨_, ht, fun c k => ?_⟩
  simp only [exec_tick_slot ht c k, advancePhase_envAcc, advancePhase_egState]
  refine ⟨fun h => ⟨?_, ?_⟩, fun h => ⟨?_, ?_⟩, fun h => ⟨?_, ?_⟩, fun h => ⟨?_, ?_⟩, fun h => ⟨?_, ?_⟩⟩
  · rintro inc rfl
    rw [egTick_attack cfg _ h]
    simp [egAttack, attackDelta, attenuation, shiftRight_sixteen]
  · rw [egTick_attack cfg _ h]
    simp [egAttack, shiftRight_sixteen, h, Nat.div_eq_zero_iff]
  · rw [egTick_decay cfg _ h]
    simp [egDecay, riseTo]
  · rw [egTick_decay cfg _ h]
    simp [egDecay, shiftRight_sixteen, h, slAtt_eq]
  · rw [egTick_sustain cfg _ h]
    simp [egSustain, riseTo]
  · rw [egTick_sustain cfg _ h, egSustain_egState, h]
  · rw [egTick_release cfg _ h]
    simp [egRelease, riseTo, releaseRate, BitVec.toNat_eq]
  · rw [egTick_release cfg _ h]
    simp [egRelease, h]
  · rw [egTick_off cfg _ h]
  · rw [egTick_off cfg _ h, h]

/-- Settles O37 (40 R102): the invariant bounds the accumulator, so the clamp of a rising step never lowers it. -/
theorem tickEnvelopeDirection : Obligations.TickEnvelopeDirection := by
  intro s t hinv ht c k
  obtain ⟨hl, -, -⟩ := exec_tick_next.1 ht
  obtain ⟨hch, -⟩ := hinv hl
  obtain ⟨hslot, -, -⟩ := hch c
  obtain ⟨hle, -⟩ : (s.slot c k).Inv := hslot k
  rw [exec_tick_slot ht c k, advancePhase_envAcc]
  refine ⟨egTick_attack_falls _, fun h => ?_, fun h => by rw [egTick_off cfg _ h]⟩
  obtain ⟨inc, hinc⟩ := egTick_rises (keyCode cfg (s.channel c)) h
  omega

end Sys2Proof.Machine

/-!
Frequency, operators and algorithms (41_operator, 42_algorithm, 43_frequency), and the tick of the block built from
them (45_chip_engine): closed forms, bounds, and the silent channel.
-/

namespace Sys2Proof.Machine

/-! ## Frequency -/

/-- The detuned frequency as the integers of 43 R138 to R141 have it. -/
theorem detunedFreq_eq (ch : Channel) (sl : Slot) :
    (detunedFreq cfg ch sl : Int) =
      (if sl.dt.toNat < 4 then
        (ch.fnum.toNat * 2 ^ ch.block.toNat : Int) +
          2 * (dtTable (BitVec.ofNat 2 (sl.dt.toNat % 4)) (keyCode cfg ch) : Int)
      else
        (ch.fnum.toNat * 2 ^ ch.block.toNat : Int) -
          2 * (dtTable (BitVec.ofNat 2 (sl.dt.toNat % 4)) (keyCode cfg ch) : Int)) % 262144 := by
  have hsign : ∀ dt : BitVec 3, dt.getLsbD 2 = decide (¬dt.toNat < 4) := by decide
  have hmag : ∀ dt : BitVec 3, dt.extractLsb' 0 2 = BitVec.ofNat 2 (dt.toNat % 4) := by decide
  have hamount : detuneAmount cfg (keyCode cfg ch) sl =
      dtTable (BitVec.ofNat 2 (sl.dt.toNat % 4)) (keyCode cfg ch) := by
    rw [← hmag]
    rfl
  simp only [detunedFreq, hamount, detuneSign, hsign, Nat.shiftLeft_eq, decide_eq_true_eq]
  rw [Int.toNat_of_nonneg (Int.emod_nonneg _ (by decide))]
  push_cast
  by_cases h : sl.dt.toNat < 4
  · rw [if_neg (not_not.2 h), if_pos h, one_mul]
  · rw [if_pos h, if_neg h, neg_one_mul, neg_mul, ← sub_eq_add_neg]

theorem mulHalf_eq (mul : BitVec 4) : (mulHalf mul : Int) = if mul = 0 then 1 else 2 * (mul.toNat : Int) := by
  have hzero : mul.toNat = 0 ↔ mul = 0 := by simp [BitVec.toNat_eq]
  unfold mulHalf
  simp only [hzero]
  split <;> simp

/-- The phase increment is `fc * half * 2^10`, mod 2^32 (43 R141). -/
theorem phaseInc_toNat (g : Cfg) (ch : Channel) (sl : Slot) :
    (phaseInc g ch sl).toNat = detunedFreq g ch sl * mulHalf sl.mul * 1024 % 4294967296 := by
  rw [phaseInc, BitVec.toNat_ofNat, Nat.shiftLeft_eq]

/-! ## Operators -/

/-- An operator's output in the numbers of the default configuration (41 R111, R112, R115). -/
theorem opOutput_eq (sl : Slot) (m : Int) :
    opOutput cfg sl m =
      cfg.opWave (BitVec.ofInt 32 (sl.phase.toNat + m * 2097152))
        (min 6144 (sl.envAcc / 65536 + 48 * sl.tl.toNat)) := by
  rw [opOutput, totalAtt, attenuation, shiftRight_sixteen, cfg_tlStep, Nat.mul_comm sl.tl.toNat]
  rfl

/-- The operator outputs of a channel lie within the peak (41 R113). -/
theorem opOut1_bound (ch : Channel) : -8191 ≤ opOut1 cfg ch ∧ opOut1 cfg ch ≤ 8191 := opOutput_bound _ _
theorem opOut2_bound (ch : Channel) : -8191 ≤ opOut2 cfg ch ∧ opOut2 cfg ch ≤ 8191 := opOutput_bound _ _
theorem opOut3_bound (ch : Channel) : -8191 ≤ opOut3 cfg ch ∧ opOut3 cfg ch ≤ 8191 := opOutput_bound _ _
theorem opOut4_bound (ch : Channel) : -8191 ≤ opOut4 cfg ch ∧ opOut4 cfg ch ≤ 8191 := opOutput_bound _ _

theorem fbHist0_tickChannel_toInt (ch : Channel) :
    (tickChannel cfg ch).1.fbHist0.toInt = opOut1 cfg (egTickChannel cfg ch) := by
  have := opOut1_bound (egTickChannel cfg ch)
  rw [tickChannel_fbHist0, toSample_toInt] <;> omega

/-! ## Feedback -/

theorem fbMod_zero (g : Cfg) {ch : Channel} (h : ch.fb = 0) : fbMod g ch = 0 := by simp [fbMod, h]

theorem fbMod_eq {ch : Channel} (h : ch.fb ≠ 0) :
    fbMod cfg ch = Int.tdiv (ch.fbHist0.toInt + ch.fbHist1.toInt) (2 ^ (9 - ch.fb.toNat)) := if_neg h

/-- Truncated division of a value of magnitude below `d * (b + 1)`. -/
theorem tdiv_bound {v d b : Int} (hd : 0 < d) (h0 : -(d * (b + 1)) < v) (h1 : v < d * (b + 1)) :
    -b ≤ Int.tdiv v d ∧ Int.tdiv v d ≤ b := by
  have hnonneg : ∀ w : Int, 0 ≤ w → w < d * (b + 1) → 0 ≤ Int.tdiv w d ∧ Int.tdiv w d < b + 1 := fun w hw hlt => by
    rw [Int.tdiv_eq_ediv_of_nonneg hw]
    exact ⟨Int.ediv_nonneg hw hd.le, Int.ediv_lt_of_lt_mul hd (by rwa [mul_comm])⟩
  rcases le_total 0 v with hv | hv
  · have := hnonneg v hv h1
    omega
  · have := hnonneg (-v) (by omega) (by omega)
    rw [Int.neg_tdiv] at this
    omega

/-! ## Algorithms -/

/-- The channel sample from the operators' outputs, given the modulation inputs by name (42 R121, R125). -/
theorem route_of_outputs {ch : Channel} {o1 o2 o3 o4 m2 m3 m4 : Int}
    (h1 : o1 = opOutput cfg (ch.slot.get 0) (fbMod cfg ch)) (h2 : o2 = opOutput cfg (ch.slot.get 2) m2)
    (h3 : o3 = opOutput cfg (ch.slot.get 1) m3) (h4 : o4 = opOutput cfg (ch.slot.get 3) m4)
    (hm2 : m2 = mod2 ch.alg o1) (hm3 : m3 = mod3 ch.alg o1 o2) (hm4 : m4 = mod4 ch.alg o1 o2 o3) :
    (route cfg ch).2 = carrierSum ch.alg o1 o2 o3 o4 := by
  have e1 : opOut1 cfg ch = o1 := h1.symm
  have e2 : opOut2 cfg ch = o2 := by rw [opOut2, e1, ← hm2, h2]
  have e3 : opOut3 cfg ch = o3 := by rw [opOut3, e1, e2, ← hm3, h3]
  have e4 : opOut4 cfg ch = o4 := by rw [opOut4, e1, e2, e3, ← hm4, h4]
  rw [route_sample, e1, e2, e3, e4]

theorem carrierSum_bound (alg : BitVec 3) {o1 o2 o3 o4 b : Int} (h1 : -b ≤ o1 ∧ o1 ≤ b) (h2 : -b ≤ o2 ∧ o2 ≤ b)
    (h3 : -b ≤ o3 ∧ o3 ≤ b) (h4 : -b ≤ o4 ∧ o4 ≤ b) :
    -(4 * b) ≤ carrierSum alg o1 o2 o3 o4 ∧ carrierSum alg o1 o2 o3 o4 ≤ 4 * b := by
  unfold carrierSum
  split <;> omega

theorem carrierSum_zero (alg : BitVec 3) : carrierSum alg 0 0 0 0 = 0 := by
  unfold carrierSum
  split <;> rfl

/-- A channel's sample lies within four peaks (42 R125). -/
theorem tickChannel_bound (ch : Channel) :
    -32764 ≤ (tickChannel cfg ch).2 ∧ (tickChannel cfg ch).2 ≤ 32764 := by
  rw [tickChannel_sample]
  exact carrierSum_bound ch.alg (opOut1_bound _) (opOut2_bound _) (opOut3_bound _) (opOut4_bound _)

/-! ## The mix -/

theorem Bank6.sum_eq {α : Type} (f : α → Int) (b : Bank6 α) : b.sum f = ∑ c : Chan, f (b.get c) := by
  rw [Fin.sum_univ_six]
  rfl

/-- The sum of the channels' samples through one side's enables (45 R193). -/
def sideSum (enabled : Channel → Bool) (chip : Chip) : Int :=
  ∑ c : Chan, if enabled (chip.ch.get c) then (tickChannel cfg (chip.ch.get c)).2 else 0

theorem tickChip_left (chip : Chip) : (tickChip cfg chip).2.left = mixSide (sideSum Channel.panL chip) := by
  simp [tickChip, mix, Bank6.sum_eq, sideSum]

theorem tickChip_right (chip : Chip) : (tickChip cfg chip).2.right = mixSide (sideSum Channel.panR chip) := by
  simp [tickChip, mix, Bank6.sum_eq, sideSum]

/-- A side is the truncated quotient by 6, saturated (45 R194). -/
theorem mixSide_toInt (sum : Int) : (mixSide sum).toInt = sat16 (Int.tdiv sum 6) := by
  have hsat : -32768 ≤ sat16 (Int.tdiv sum 6) ∧ sat16 (Int.tdiv sum 6) ≤ 32767 := by
    unfold sat16 clamp
    omega
  exact toSample_toInt hsat.1 hsat.2

theorem sideSum_bound (enabled : Channel → Bool) (chip : Chip) :
    -196584 ≤ sideSum enabled chip ∧ sideSum enabled chip ≤ 196584 := by
  have hterm : ∀ c : Chan,
      -32764 ≤ (if enabled (chip.ch.get c) then (tickChannel cfg (chip.ch.get c)).2 else 0) ∧
        (if enabled (chip.ch.get c) then (tickChannel cfg (chip.ch.get c)).2 else 0) ≤ 32764 := by
    intro c
    have := tickChannel_bound (chip.ch.get c)
    split <;> omega
  rw [sideSum, Fin.sum_univ_six]
  have := hterm 0; have := hterm 1; have := hterm 2; have := hterm 3; have := hterm 4; have := hterm 5
  omega

/-- At the default peak the quotient fits, and the saturation leaves it (45 R194). -/
theorem mixSide_sideSum (enabled : Channel → Bool) (chip : Chip) :
    (mixSide (sideSum enabled chip)).toInt = Int.tdiv (sideSum enabled chip) 6 ∧
      -32764 ≤ Int.tdiv (sideSum enabled chip) 6 ∧ Int.tdiv (sideSum enabled chip) 6 ≤ 32764 := by
  obtain ⟨h0, h1⟩ := sideSum_bound enabled chip
  have hq : -32764 ≤ Int.tdiv (sideSum enabled chip) 6 ∧ Int.tdiv (sideSum enabled chip) 6 ≤ 32764 :=
    tdiv_bound (by decide) (by omega) (by omega)
  refine ⟨?_, hq⟩
  rw [mixSide_toInt, sat16, clamp]
  omega

/-! ## What a tick leaves -/

theorem Chip.SameParams.refl (chip : Chip) : chip.SameParams chip := by
  simp [Chip.SameParams, Channel.SameParams, Slot.SameParams]

theorem tickChannel_sameParams (ch : Channel) : (tickChannel cfg ch).1.SameParams ch := by
  refine ⟨fun k => ?_, by simp⟩
  rw [tickChannel_slot]
  simp [Slot.SameParams, advancePhase]

theorem tickChip_sameParams (chip : Chip) : (tickChip cfg chip).1.SameParams chip :=
  ⟨fun c => by rw [tickChip_ch]; exact tickChannel_sameParams _, rfl, rfl, rfl⟩

/-! ## Silence -/

/-- Every slot is Off at `ENV_TOP`. -/
def Channel.Silent (ch : Channel) : Prop :=
  ∀ k, (ch.slot.get k).egState = .off ∧ (ch.slot.get k).envAcc = cfg.envTop

theorem egTickChannel_silent {ch : Channel} (h : ch.Silent) : egTickChannel cfg ch = ch := by
  have hslot : ch.slot.map (egTick cfg (keyCode cfg ch)) = ch.slot := by
    apply Bank4.ext_get
    intro k
    rw [Bank4.get_map, egTick_off cfg _ (h k).1]
  rw [egTickChannel, hslot]

theorem opOut1_silent {ch : Channel} (h : ch.Silent) : opOut1 cfg ch = 0 := opOutput_silent (h 0).2 _

theorem tickChannel_silent_sample {ch : Channel} (h : ch.Silent) : (tickChannel cfg ch).2 = 0 := by
  have h2 : opOut2 cfg ch = 0 := opOutput_silent (h 2).2 _
  have h3 : opOut3 cfg ch = 0 := opOutput_silent (h 1).2 _
  have h4 : opOut4 cfg ch = 0 := opOutput_silent (h 3).2 _
  rw [tickChannel_sample, egTickChannel_silent h, opOut1_silent h, h2, h3, h4, carrierSum_zero]

theorem tickChip_silent {chip : Chip} (h : ∀ c, (chip.ch.get c).Silent) : (tickChip cfg chip).2 = ⟨0, 0⟩ := by
  have hsum : ∀ enabled : Channel → Bool, sideSum enabled chip = 0 := fun enabled =>
    Finset.sum_eq_zero fun c _ => by rw [tickChannel_silent_sample (h c), ite_self]
  have hleft : (tickChip cfg chip).2.left = 0 := by rw [tickChip_left, hsum]; rfl
  have hright : (tickChip cfg chip).2.right = 0 := by rw [tickChip_right, hsum]; rfl
  calc (tickChip cfg chip).2 = ⟨(tickChip cfg chip).2.left, (tickChip cfg chip).2.right⟩ := rfl
    _ = ⟨0, 0⟩ := by rw [hleft, hright]

theorem channel_silent_of_inv {ch : Channel} (h : ch.Inv) (hoff : ∀ k, (ch.slot.get k).egState = .off) : ch.Silent :=
  fun k => ⟨hoff k, (h.1 k).2 (hoff k)⟩

/-! ## The statements on frequency and operators -/

/-- Settles O38 (43 R136): the note table as the two Boolean functions of its index. -/
theorem keyCodeRule : Obligations.KeyCodeRule := by
  intro ch
  have htable : ∀ top : BitVec 4, (kcNoteTable.getD top.toNat 0).toNat =
      2 * (top.getLsbD 3).toNat + ((top.getLsbD 3 && (top.getLsbD 2 || top.getLsbD 1 || top.getLsbD 0)) ||
        (!top.getLsbD 3 && top.getLsbD 2 && top.getLsbD 1 && top.getLsbD 0)).toNat := by decide
  have hbit : ∀ i < 4, (ch.fnum.extractLsb' 7 4).getLsbD i = ch.fnum.getLsbD (7 + i) := fun i hi => by
    simp [hi]
  have hnote : (cfg.kcNote (ch.fnum.extractLsb' 7 4)).toNat < 2 ^ 2 := BitVec.isLt _
  have hvalue := htable (ch.fnum.extractLsb' 7 4)
  rw [hbit 3 (by decide), hbit 2 (by decide), hbit 1 (by decide), hbit 0 (by decide)] at hvalue
  simp only [Nat.reduceAdd] at hvalue
  rw [keyCode, BitVec.toNat_append, ← Nat.shiftLeft_add_eq_or_of_lt hnote, Nat.shiftLeft_eq,
    show cfg.kcNote (ch.fnum.extractLsb' 7 4) = kcNoteTable.getD (ch.fnum.extractLsb' 7 4).toNat 0 from rfl, hvalue]
  omega

/-- Settles O39 (43 R138 to R141, 41 R114). -/
theorem tickAdvancesEveryPhase : Obligations.TickAdvancesEveryPhase := by
  intro s hs
  have ht := exec_tick_ready hs
  refine ⟨_, ht, fun c k => ?_⟩
  dsimp only
  rw [exec_tick_slot ht c k, advancePhase_phase, egTick_phase,
    phaseInc_congr cfg (ch' := s.channel c) (sl' := s.slot c k) rfl rfl (egTick_dt _ _ _) (egTick_mul _ _ _),
    ← detunedFreq_eq, ← mulHalf_eq, BitVec.toNat_add, phaseInc_toNat]
  push_cast
  omega

/-- Settles O41 (41 R111, R112, R115). -/
theorem modulationShiftsPhase : Obligations.ModulationShiftsPhase := by
  intro ch k m
  refine ⟨opOutput_eq _ m, by simp [opGen], fun j hj => ?_, by simp [Channel.SameRegs, opGen]⟩
  simp [opGen, Channel.modifySlot_slot, hj]

/-- Settles O40 (41 R111 to R115, 42 R122, R123). -/
theorem tickOperatorOneOutput : Obligations.TickOperatorOneOutput := by
  intro s hs
  have ht := exec_tick_ready hs
  refine ⟨_, ht, fun c => ?_⟩
  have hout : (tickChannel cfg (s.channel c)).1.fbHist0.toInt =
      cfg.opWave (BitVec.ofInt 32 ((s.slot c 0).phase.toNat + fbMod cfg (s.channel c) * 2097152))
        (min 6144 ((egTick cfg (keyCode cfg (s.channel c)) (s.slot c 0)).envAcc / 65536 +
          48 * (s.slot c 0).tl.toNat)) := by
    rw [fbHist0_tickChannel_toInt, opOut1, opOutput_eq, egTickChannel_slot, Bank4.get_map, egTick_phase, egTick_tl]
    rfl
  rw [exec_tick_channel ht, exec_tick_slot ht, advancePhase_envAcc, tickChannel_fbHist1]
  refine ⟨rfl, hout, fun hfb => ?_⟩
  rw [hout, fbMod_zero cfg hfb]
  simp

/-! ## The statements on feedback and algorithms -/

/-- Settles O46 (42 R122): at feedback 1 to 7 the divisor is at least 4. -/
theorem feedbackTermRule : Obligations.FeedbackTermRule := by
  intro ch
  refine ⟨fbMod_zero cfg, fbMod_eq, fun hinv => ?_⟩
  obtain ⟨-, ⟨hlo0, hhi0⟩, ⟨hlo1, hhi1⟩⟩ := hinv
  rw [cfg_peak] at hlo0 hhi0 hlo1 hhi1
  by_cases hfb : ch.fb = 0
  · rw [fbMod_zero cfg hfb]
    decide
  · have hfb7 : ch.fb.toNat < 8 := ch.fb.isLt
    have hdiv : (4 : Int) ≤ 2 ^ (9 - ch.fb.toNat) :=
      calc (4 : Int) = 2 ^ 2 := by norm_num
        _ ≤ 2 ^ (9 - ch.fb.toNat) := pow_le_pow_right₀ (by norm_num) (by omega)
    rw [fbMod_eq hfb]
    refine tdiv_bound (by omega) ?_ ?_ <;> omega

/-- Settles O47 (42 R126 to R133): the rows of the modulation inputs and of the carriers. -/
theorem algorithmRouting : Obligations.AlgorithmRouting := by
  intro ch o1 o2 o3 o4 m2 m3 m4 h1 h2 h3 h4
  have hroute := route_of_outputs h1 h2 h3 h4
  refine ⟨?_, ?_, ?_, ?_, ?_, ?_, ?_, ?_⟩ <;> intro ha hm2 hm3 hm4 <;> rw [ha] at hroute <;>
    exact hroute hm2 hm3 hm4

/-- Settles O48 (42 R134 (a)): the silent chain's carrier adds 0, and no input of a chain comes from the other. -/
theorem algorithmFourIsTwoChains : Obligations.AlgorithmFourIsTwoChains := by
  intro a b d ha hb hd hfb hh0 hh1 hb0 hb2 hb1 hb3 hd1 hd3 hd0 hd2
  have hsum : ∀ ch : Channel, ch.alg = 4 → (route cfg ch).2 = opOut2 cfg ch + opOut4 cfg ch := fun ch hch => by
    rw [route_sample, hch]
    rfl
  have hfirst : opOut2 cfg b = opOut2 cfg a := by
    simp only [opOut2, opOut1, fbMod, ha, hb, hfb, hh0, hh1, hb0, hb2]
  have hsecond : opOut4 cfg d = opOut4 cfg a := by
    have h3 : opOut3 cfg d = opOut3 cfg a := by
      rw [opOut3, opOut3, hd, ha, hd1]
      rfl
    rw [opOut4, opOut4, hd, ha, hd3, h3]
    rfl
  have hb4 : opOut4 cfg b = 0 := opOutput_silent hb3 _
  have hd2' : opOut2 cfg d = 0 := opOutput_silent hd2 _
  rw [hsum a ha, hsum b hb, hsum d hd, hfirst, hsecond, hb4, hd2']
  omega

/-- Settles O49 (41 R117, 42 R134 (c)): without feedback the outputs do not read the history. -/
theorem feedbackZeroIgnoresHistory : Obligations.FeedbackZeroIgnoresHistory := by
  intro ch h0 h1 hfb
  generalize hother : ({ ch with fbHist0 := h0, fbHist1 := h1 } : Channel) = other
  have hslot : (egTickChannel cfg other).slot = (egTickChannel cfg ch).slot := by subst hother; rfl
  have halg : (egTickChannel cfg other).alg = (egTickChannel cfg ch).alg := by subst hother; rfl
  have hmod : fbMod cfg (egTickChannel cfg other) = fbMod cfg (egTickChannel cfg ch) := by
    rw [fbMod_zero cfg (by subst hother; exact hfb), fbMod_zero cfg (ch := egTickChannel cfg ch) hfb]
  have e1 : opOut1 cfg (egTickChannel cfg other) = opOut1 cfg (egTickChannel cfg ch) := by
    rw [opOut1, opOut1, hslot, hmod]
  have e2 : opOut2 cfg (egTickChannel cfg other) = opOut2 cfg (egTickChannel cfg ch) := by
    rw [opOut2, opOut2, hslot, halg, e1]
  have e3 : opOut3 cfg (egTickChannel cfg other) = opOut3 cfg (egTickChannel cfg ch) := by
    rw [opOut3, opOut3, hslot, halg, e1, e2]
  have e4 : opOut4 cfg (egTickChannel cfg other) = opOut4 cfg (egTickChannel cfg ch) := by
    rw [opOut4, opOut4, hslot, halg, e1, e2, e3]
  constructor
  · rw [tickChannel_sample, tickChannel_sample, e1, e2, e3, e4]
    subst hother
    rfl
  · rw [tickChannel, tickChannel, route_channel, route_channel, e1]
    subst hother
    rfl

/-! ## The statements on `TICK` -/

/-- Settles O51 (45 R193, R194). -/
theorem mixNeverSaturates : Obligations.MixNeverSaturates := by
  intro chip
  obtain ⟨hl, hl0, hl1⟩ := mixSide_sideSum Channel.panL chip
  obtain ⟨hr, hr0, hr1⟩ := mixSide_sideSum Channel.panR chip
  rw [tickChip_left, tickChip_right, hl, hr]
  refine ⟨fun c => tickChannel_bound _, rfl, rfl, hl0, hl1, hr0, hr1, fun heq => ?_⟩
  simp only [sideSum, heq]

/-- Settles O50 (45 R190, R192 to R194). -/
theorem tickResult : Obligations.TickResult := by
  intro s hs
  have ht := exec_tick_ready hs
  refine ⟨_, _, ht, rfl, exec_tick_channel ht, fun c => ⟨rfl, rfl, fun k => ?_⟩, ?_, ?_, tickChip_sameParams _,
    rfl, rfl, rfl, rfl⟩
  · rw [exec_tick_slot ht c k, egTickChannel_slot, Bank4.get_map]
    exact egTick_eq cfg _ _
  · rw [tickChip_left, mixSide_toInt]
    rfl
  · rw [tickChip_right, mixSide_toInt]
    rfl

/-- Settles O52 (45 R196): the invariant puts every Off slot at `ENV_TOP`, where it is silent. -/
theorem silentTickReturnsZero : Obligations.SilentTickReturnsZero := by
  intro s t hinv hoff ht
  have htick := ht
  obtain ⟨hl, -, rfl⟩ := exec_tick_next.1 htick
  obtain ⟨hch, -⟩ := hinv hl
  have hsilent : ∀ c, (s.channel c).Silent := fun c => channel_silent_of_inv (hch c) (hoff c)
  refine ⟨by rw [tickChip_silent hsilent]; rfl, fun c => ⟨?_, fun k => ?_⟩⟩
  · rw [exec_tick_channel ht, tickChannel, egTickChannel_silent (hsilent c), route_channel,
      opOut1_silent (hsilent c)]
    rfl
  · rw [exec_tick_slot ht c k, egTick_off cfg _ (hoff c k)]
    rfl

end Sys2Proof.Machine

/-!
The resampler's loop and `HOUT` (46_resampler), `RESET` and `KILL` (47_system_ops), and the statements about whole
operations and steps that follow from the effect of each operation.
-/

namespace Sys2Proof.Machine

/-! ## The loop of `HOUT` -/

/-- A loop that completes is that many admitted rounds. -/
theorem pull_ok {n : Nat} {chip u : Chip} (h : pull cfg n chip = .ok u) : u = (pullOne cfg)^[n] chip := by
  cases n with
  | zero => cases h; rfl
  | succ n =>
    cases ha : admission cfg chip with
    | none => rw [pull_admitted cfg _ _ ha] at h; cases h; rfl
    | some r => rw [pull_refused cfg n chip r ha] at h; cases h

/-- The position after the loop is the fraction that was left (46 R203). -/
theorem pull_due_pos {chip u : Chip} (h : pull cfg (ticksDue cfg chip) chip = .ok u) :
    u.rs.pos = chip.rs.pos % 4294967296 := by
  rw [pull_ok h, pullOne_due_pos, cfg_one]

theorem Chip.SameParams.trans {a b d : Chip} (h : a.SameParams b) (h' : b.SameParams d) : a.SameParams d := by
  obtain ⟨hch, hlfo, hfreq, hlatch⟩ := h
  obtain ⟨hch', hlfo', hfreq', hlatch'⟩ := h'
  refine ⟨fun c => ?_, hlfo.trans hlfo', hfreq.trans hfreq', hlatch.trans hlatch'⟩
  obtain ⟨hslot, hregs⟩ := hch c
  obtain ⟨hslot', hregs'⟩ := hch' c
  refine ⟨fun k => ?_, by simp_all⟩
  have := hslot k
  have := hslot' k
  simp_all [Slot.SameParams]

theorem pullOne_sameParams (chip : Chip) : (pullOne cfg chip).SameParams chip := tickChip_sameParams chip

theorem pull_sameParams {n : Nat} {chip u : Chip} (h : pull cfg n chip = .ok u) : u.SameParams chip :=
  pull_invariant cfg (fun x => x.SameParams chip) (fun x hx => (pullOne_sameParams x).trans hx) n h (.refl chip)

theorem pull_addrLatch {n : Nat} {chip u : Chip} (h : pull cfg n chip = .ok u) : u.addrLatch = chip.addrLatch :=
  pull_invariant cfg (fun x => x.addrLatch = chip.addrLatch) (fun _ hx => hx) n h rfl

/-- Equal parameter registers give equal key codes and phase increments (43 R136, R141). -/
theorem Channel.SameParams.pitch {a b : Channel} (h : a.SameParams b) :
    keyCode cfg a = keyCode cfg b ∧ ∀ k, phaseInc cfg a (a.slot.get k) = phaseInc cfg b (b.slot.get k) := by
  obtain ⟨hslot, -, -, hblock, hfnum, -⟩ := h
  refine ⟨keyCode_congr cfg hblock hfnum, fun k => ?_⟩
  obtain ⟨hdt, hmul, -⟩ := hslot k
  exact phaseInc_congr cfg hblock hfnum hdt hmul

theorem pullOne_phase (chip : Chip) (c : Chan) (k : SlotIx) :
    (((pullOne cfg chip).ch.get c).slot.get k).phase =
      ((chip.ch.get c).slot.get k).phase + phaseInc cfg (chip.ch.get c) ((chip.ch.get c).slot.get k) := by
  rw [pullOne_ch, tickChannel_slot, advancePhase_phase, egTick_phase,
    phaseInc_congr cfg (sl' := (chip.ch.get c).slot.get k) rfl rfl (egTick_dt _ _ _) (egTick_mul _ _ _)]

theorem pullOne_iterate_sameParams (n : Nat) (chip : Chip) : ((pullOne cfg)^[n] chip).SameParams chip := by
  induction n with
  | zero => exact .refl chip
  | succ n ih =>
    rw [Function.iterate_succ_apply']
    exact (pullOne_sameParams _).trans ih

/-- Every round advances every phase by the same increment (43 R143, 46 R203). -/
theorem pullOne_iterate_phase (n : Nat) (chip : Chip) (c : Chan) (k : SlotIx) :
    ((((pullOne cfg)^[n] chip).ch.get c).slot.get k).phase =
      ((chip.ch.get c).slot.get k).phase +
        BitVec.ofNat 32 n * phaseInc cfg (chip.ch.get c) ((chip.ch.get c).slot.get k) := by
  induction n with
  | zero => simp
  | succ n ih =>
    have hinc := ((pullOne_iterate_sameParams n chip).1 c).pitch.2 k
    rw [Function.iterate_succ_apply', pullOne_phase, ih, hinc, BitVec.ofNat_add, BitVec.add_mul, BitVec.add_assoc]
    simp

/-- `HOUT` with a tick due is `HOUT` after one admitted round (46 R202). -/
theorem hout_pullOne {chip : Chip} (ratio : Nat) (ha : admission cfg chip = none) (hpos : 4294967296 ≤ chip.rs.pos) :
    hout cfg ratio chip = hout cfg ratio (pullOne cfg chip) := by
  have hdue : ticksDue cfg chip = ticksDue cfg (pullOne cfg chip) + 1 := by
    rw [ticksDue, ticksDue, pullOne_rs, Resampler.shift_pos, lowerPos_eq, cfg_one]
    omega
  rw [hout, hdue, pull_succ cfg _ _ ha]
  rfl

theorem answer_withChip (s : State) (chip : Chip) (r : Except Refusal (Chip × Pair)) :
    answer (s.withChip chip) r = answer s r := by
  cases r <;> rfl

/-- Interpolation stays between the two samples (46 R202). -/
theorem interpolate_between (prev cur : Sample) {f : Nat} (h : f < cfg.one) :
    min prev.toInt cur.toInt ≤ (interpolate cfg prev cur f).toInt ∧
      (interpolate cfg prev cur f).toInt ≤ max prev.toInt cur.toInt := by
  obtain ⟨hlo, hhi⟩ := tdiv_fraction_between cfg (cur.toInt - prev.toInt) f h
  rw [interpolate_toInt cfg prev cur f h]
  omega

/-! ## The statements on `HOUT` -/

/-- Settles O54 (46 R202): no tick is due. -/
theorem houtWithoutTick : Obligations.HoutWithoutTick := by
  intro ratio s hl hpos
  have hdue : ticksDue cfg s.chip = 0 := Nat.div_eq_of_lt hpos
  have hu : pull cfg (ticksDue cfg s.chip) s.chip = .ok s.chip := by rw [hdue, pull_zero]
  refine ⟨_, _, exec_hout_next.2 ⟨hl, _, hu, rfl⟩, rfl, ?_, ?_, rfl, rfl⟩
  · exact interpolate_toInt cfg _ _ _ hpos
  · exact interpolate_toInt cfg _ _ _ hpos

/-- Settles O55 (46 R202): the first round of the loop. -/
theorem houtPullsTick : Obligations.HoutPullsTick := by
  intro ratio s hl hpos
  constructor
  · intro u v y pos hu hy hlow hv
    obtain ⟨-, ha, rfl⟩ := exec_tick_next.1 hu
    obtain rfl : (tickChip cfg s.chip).2 = y := by simpa using hy
    have hchip : v = s.withChip (pullOne cfg s.chip) := by
      obtain rfl : pos = lowerPos cfg s.chip.rs.pos := by rw [lowerPos_eq, cfg_one]; omega
      exact hv
    rw [hchip, exec_hout_live hl, exec_hout_live (by exact hl), answer_withChip, hout_pullOne _ ha hpos]
    rfl
  · intro f hf
    have ht : tick cfg s.chip = .error f := by
      rw [exec_tick_live hl] at hf
      cases h : tick cfg s.chip with
      | error r => rw [h] at hf; cases hf; rfl
      | ok y => rw [h] at hf; cases hf
    have hdue : ticksDue cfg s.chip = (s.chip.rs.pos / 4294967296 - 1) + 1 := by
      rw [ticksDue, cfg_one]
      omega
    rw [exec_hout_live hl, hout, hdue, pull, ht]
    rfl

/-- Settles O56 (46 R203, R204): the rounds that are due, all admitted. -/
theorem houtTickCountAndPosition : Obligations.HoutTickCountAndPosition := by
  intro ratio s hs
  obtain ⟨hl, hadm⟩ := hs
  have hu := pull_admitted cfg (ticksDue cfg s.chip) s.chip hadm.admission
  have hpos := pull_due_pos hu
  have hparams := pull_sameParams hu
  have hlatch := pull_addrLatch hu
  refine ⟨_, exec_hout_next.2 ⟨hl, _, hu, rfl⟩, ?_, ?_, fun c k => ?_, hparams, hlatch, rfl, rfl⟩
  · rw [← hpos]
    rfl
  · rw [Resampler.advance_pos, hpos]
    omega
  · exact pullOne_iterate_phase _ s.chip c k

/-- Settles O57 (46 R202): the loop leaves a position below 1.0. -/
theorem houtSampleBetweenHeldPairs : Obligations.HoutSampleBetweenHeldPairs := by
  intro ratio s t h
  obtain ⟨-, u, hu, rfl⟩ := exec_hout_next.1 h
  have hf : u.rs.pos < cfg.one := by
    rw [pull_due_pos hu, cfg_one]
    omega
  obtain ⟨hl0, hl1⟩ := interpolate_between u.rs.prev.left u.rs.cur.left hf
  obtain ⟨hr0, hr1⟩ := interpolate_between u.rs.prev.right u.rs.cur.right hf
  exact ⟨_, rfl, hl0, hl1, hr0, hr1⟩

/-! ## `RESET` and `KILL` -/

@[simp] theorem resetChip_channel (g : Cfg) (c : Chan) : (resetChip g).ch.get c = resetChannel g := by
  fin_cases c <;> rfl

@[simp] theorem resetChannel_slot (g : Cfg) (k : SlotIx) : (resetChannel g).slot.get k = resetSlot g := by
  fin_cases k <;> rfl

theorem killed_slot (chip : Chip) (c : Chan) (k : SlotIx) :
    ((killed chip).ch.get c).slot.get k = silence cfg ((chip.ch.get c).slot.get k) := by
  simp [killed]

theorem killed_channel (chip : Chip) (c : Chan) :
    (killed chip).ch.get c = { chip.ch.get c with slot := ((killed chip).ch.get c).slot } := by
  simp [killed]

theorem killed_silent (chip : Chip) (c : Chan) : ((killed chip).ch.get c).Silent := fun k => by
  rw [killed_slot]
  exact ⟨rfl, rfl⟩

theorem killed_sameParams (chip : Chip) : (killed chip).SameParams chip := by
  refine ⟨fun c => ⟨fun k => ?_, ?_⟩, rfl, rfl, rfl⟩
  · rw [killed_slot]
    simp [Slot.SameParams, silence]
  · rw [killed_channel]
    simp

theorem killed_admitted {chip : Chip} (h : chip.Admitted) : (killed chip).Admitted := by
  refine ⟨h.1, fun c k => ?_⟩
  rw [killed_slot]
  exact h.2 c k

/-- Settles O58 (47 R210). -/
theorem resetResult : Obligations.ResetResult := by
  intro s
  refine ⟨_, rfl, rfl, fun p => ?_, rfl, rfl, rfl, fun c => ?_, fun c k => ?_, rfl, rfl, rfl⟩
  · cases p <;> rfl
  · simp [State.channel, resetChannel]
  · simp [State.slot, State.channel, resetSlot]

/-- Settles O59 (47 R212). -/
theorem killResult : Obligations.KillResult := by
  intro s hl
  refine ⟨_, (exec_kill s).trans (writeChip_live hl _), fun c k => ?_, fun c => ?_,
    ⟨rfl, rfl, rfl, rfl, rfl, rfl, rfl, rfl⟩⟩
  · exact killed_slot s.chip c k
  · change ((killed s.chip).ch.get c).SameRegs (s.chip.ch.get c)
    rw [killed_channel]
    simp [Channel.SameRegs]

/-- Settles O60 (47 R212): after a `KILL` every channel is silent. -/
theorem tickAfterKillIsSilent : Obligations.TickAfterKillIsSilent := by
  intro s hs
  obtain ⟨hl, hadm⟩ := hs
  have hready : (s.withChip (killed s.chip)).Ready := ⟨hl, killed_admitted hadm⟩
  refine ⟨_, _, (exec_kill s).trans (writeChip_live hl _), exec_tick_ready hready, ?_⟩
  have hpair := tickChip_silent (killed_silent s.chip)
  rw [State.withChip_chip, hpair, State.withChip_outputs]

/-! ## The invariant -/

theorem Channel.SameRun.inv {a b : Channel} (h : a.SameRun b) (hb : b.Inv) : a.Inv := by
  obtain ⟨hrun, h0, h1⟩ := h
  obtain ⟨hslot, hh0, hh1⟩ := hb
  refine ⟨fun k => ?_, h0 ▸ hh0, h1 ▸ hh1⟩
  obtain ⟨-, heg, henv⟩ := hrun k
  have := hslot k
  rw [Slot.Inv, heg, henv]
  exact this

theorem ParamWrite.inv {f : Chip → Chip} (hf : ParamWrite f) {chip : Chip} (h : chip.Inv) : (f chip).Inv :=
  ⟨fun c => (hf.run chip c).inv (h.1 c), (hf.rs chip).symm ▸ h.2⟩

theorem keySlot_inv (v : Byte) (k : SlotIx) {sl : Slot} (h : sl.Inv) : (keySlot cfg v k sl).Inv := by
  unfold keySlot
  cases hk : sl.egState.keyed <;> split
  · rw [keyOn_unkeyed cfg hk]; exact ⟨le_refl _, fun _ => rfl⟩
  · rw [keyOff_unkeyed hk]; exact h
  · rw [keyOn_keyed cfg hk]; exact h
  · rw [keyOff_keyed hk]; exact ⟨h.1, fun ho => by cases ho⟩

theorem keyEffect_inv (v : Byte) {chip : Chip} (h : chip.Inv) : (keyEffect v chip).Inv := by
  refine ⟨fun c => ?_, (keyEffect_rs v chip).symm ▸ h.2⟩
  obtain ⟨hslot, h0, h1⟩ := h.1 c
  refine ⟨fun k => ?_, ?_, ?_⟩
  · rw [keyEffect_slot]
    split
    · exact keySlot_inv v k (hslot k)
    · exact hslot k
  · rw [keyEffect_channel]; exact h0
  · rw [keyEffect_channel]; exact h1

theorem tickChannel_inv {ch : Channel} (h : ch.Inv) : (tickChannel cfg ch).1.Inv := by
  obtain ⟨hslot, h0, -⟩ := h
  refine ⟨fun k => ?_, ?_, (tickChannel_fbHist1 cfg ch).symm ▸ h0⟩
  · rw [tickChannel_slot]
    exact egTick_inv _ (hslot k)
  · rw [Sample.within, fbHist0_tickChannel_toInt]
    exact opOut1_bound _

theorem tickChip_pair_within (chip : Chip) :
    Sample.within 32764 (tickChip cfg chip).2.left ∧ Sample.within 32764 (tickChip cfg chip).2.right := by
  obtain ⟨hl, hl0, hl1⟩ := mixSide_sideSum Channel.panL chip
  obtain ⟨hr, hr0, hr1⟩ := mixSide_sideSum Channel.panR chip
  rw [Sample.within, Sample.within, tickChip_left, tickChip_right, hl, hr]
  exact ⟨⟨hl0, hl1⟩, ⟨hr0, hr1⟩⟩

theorem tickChip_inv {chip : Chip} (h : chip.Inv) : (tickChip cfg chip).1.Inv :=
  ⟨fun c => by rw [tickChip_ch]; exact tickChannel_inv (h.1 c), h.2⟩

theorem pullOne_inv {chip : Chip} (h : chip.Inv) : (pullOne cfg chip).Inv := by
  obtain ⟨hch, hpos, -, -, hcur⟩ := h
  obtain ⟨hl, hr⟩ := tickChip_pair_within chip
  refine ⟨fun c => by rw [pullOne_ch]; exact tickChannel_inv (hch c), ?_, hcur.1, hcur.2, hl, hr⟩
  rw [pullOne_rs, Resampler.shift_pos, lowerPos_eq]
  omega

/-- After the loop the position is below 1.0, so the ratio keeps it below its bound (46 R204). -/
theorem hout_inv {chip u : Chip} (ratio : Ratio) (h : chip.Inv) (hu : pull cfg (ticksDue cfg chip) chip = .ok u) :
    Chip.Inv { u with rs := u.rs.advance ratio.toNat } := by
  obtain ⟨hch, -, hpairs⟩ := pull_invariant cfg Chip.Inv (fun _ => pullOne_inv) _ hu h
  refine ⟨hch, ?_, hpairs⟩
  have hratio : ratio.toNat < 281474976710656 := ratio.isLt
  rw [Resampler.advance_pos, pull_due_pos hu, cfg_one, cfg_ratioEnd]
  omega

theorem killed_inv {chip : Chip} (h : chip.Inv) : (killed chip).Inv := by
  refine ⟨fun c => ?_, h.2⟩
  obtain ⟨-, h0, h1⟩ := h.1 c
  refine ⟨fun k => ?_, ?_, ?_⟩
  · rw [killed_slot]; exact ⟨le_refl _, fun _ => rfl⟩
  · rw [killed_channel]; exact h0
  · rw [killed_channel]; exact h1

theorem resetChip_inv : (resetChip cfg).Inv := by
  have hzero : ∀ b : Int, 0 ≤ b → Sample.within b 0 := fun b hb => by
    simpa [Sample.within] using hb
  refine ⟨fun c => ?_, by decide, hzero _ (by decide), hzero _ (by decide), hzero _ (by decide), hzero _ (by decide)⟩
  rw [resetChip_channel]
  refine ⟨fun k => ?_, hzero _ (by decide), hzero _ (by decide)⟩
  rw [resetChannel_slot]
  exact ⟨le_refl _, fun _ => rfl⟩

/-- Settles O11 (10_state R24, 70_reset R240). -/
theorem resetMeetsInvariant : Obligations.ResetMeetsInvariant := by
  refine ⟨fun _ => resetChip_inv, fun c k => ?_, fun chip hl => ?_⟩
  · have hslot : State.reset.slot c k = resetSlot cfg := by
      change ((resetChip cfg).ch.get c).slot.get k = _
      rw [resetChip_channel, resetChannel_slot]
    rw [hslot]
    exact ⟨rfl, rfl⟩
  · cases hl

theorem exec_keeps_inv {i : Instr} {s t : State} (hinv : s.Inv) (h : exec i s = .next t) : t.Inv := by
  intro hl
  cases exec_effect h with
  | address p v hi => exact hinv hl
  | params f hf hi => exact hf.inv (hinv hl)
  | key v hi => exact keyEffect_inv v (hinv hl)
  | tick hi ha => exact tickChip_inv (hinv hl)
  | hout ratio hi u hu => exact hout_inv ratio (hinv hl) hu
  | reset hi => exact resetChip_inv
  | kill hi => exact killed_inv (hinv hl)

/-- Settles O10: every effect keeps the block's invariant, and taking the request changes nothing of the block. -/
theorem stepKeepsInvariant : Obligations.StepKeepsInvariant := by
  intro s t hinv h
  obtain ⟨-, hidle⟩ | ⟨r, rest, -, hstep⟩ := step_cases s
  · rw [hidle] at h
    cases h
    exact hinv
  · rw [hstep, retire_next] at h
    obtain ⟨u, hu, rfl⟩ := h
    have hkept : u.Inv := exec_keeps_inv hinv hu
    exact hkept

/-! ## Transitions of the envelopes -/

/-- What a key event changes: key-on of an un-keyed slot, key-off of a keyed one (40 R92, R93). -/
theorem keySlot_cases (v : Byte) (k : SlotIx) (sl : Slot) :
    keySlot cfg v k sl = sl ∨
    (keyBit v (opOfSlot k) = true ∧ (sl.egState = .release ∨ sl.egState = .off) ∧
      keySlot cfg v k sl = { sl with egState := .attack, envAcc := cfg.envTop, phase := 0 }) ∨
    (keyBit v (opOfSlot k) = false ∧ sl.egState.keyed = true ∧
      keySlot cfg v k sl = { sl with egState := .release }) := by
  rw [← EgState.keyed_eq_false]
  unfold keySlot
  cases hb : keyBit v (opOfSlot k) <;> cases hk : sl.egState.keyed
  · exact .inl (keyOff_unkeyed hk)
  · exact .inr (.inr ⟨rfl, rfl, keyOff_keyed hk⟩)
  · exact .inr (.inl ⟨rfl, rfl, keyOn_unkeyed cfg hk⟩)
  · exact .inl (keyOn_keyed cfg hk)

/-- Settles O12 (40 R82): one case for each effect. -/
theorem envelopeTransitionsAreTheTable : Obligations.EnvelopeTransitionsAreTheTable := by
  intro i s t h hhout c k
  have heffect := exec_effect h
  cases heffect with
  | address p v hi => exact .inl rfl
  | params f hf hi => exact .inl (hf.egState s.chip c k)
  | key v hi =>
    rw [slot_keyEffect]
    split
    next hc =>
      obtain ⟨h3, hcv⟩ := (keyChannel_eq_some v c).1 hc
      obtain hsame | hchange := keySlot_cases v k (s.slot c k)
      · exact .inl (by rw [hsame])
      · exact .inr (.inr (.inr (.inr (.inr ⟨v, hi, h3, hcv, hchange⟩))))
    next => exact .inl rfl
  | tick hi ha =>
    subst hi
    rw [exec_tick_slot h c k, advancePhase_egState, advancePhase_envAcc]
    obtain hsame | hattack | hdecay | hrelease :=
      egTick_transition (keyCode cfg (s.channel c)) (s.slot c k)
    · exact .inl hsame
    · exact .inr (.inl ⟨rfl, hattack⟩)
    · exact .inr (.inr (.inl ⟨rfl, hdecay⟩))
    · exact .inr (.inr (.inr (.inl ⟨rfl, hrelease⟩)))
  | hout ratio hi u hu => exact absurd hi (hhout ratio)
  | reset hi =>
    have hslot : State.slot { s with chip := resetChip cfg, live := true } c k = resetSlot cfg := by
      simp [State.slot, State.channel]
    rw [hslot]
    exact .inr (.inr (.inr (.inr (.inl ⟨.inr hi, rfl, rfl⟩))))
  | kill hi =>
    have hslot : (s.withChip (killed s.chip)).slot c k = silence cfg (s.slot c k) := killed_slot s.chip c k
    refine .inr (.inr (.inr (.inr (.inl ⟨.inl hi, ?_⟩))))
    rw [hslot]
    exact ⟨rfl, rfl⟩

/-! ## Leaving Off -/

theorem decodeRequest_isRegWrite (r : Request) : (decodeRequest r).isRegWrite = false := by
  cases r with
  | bus w => simp only [decodeRequest, decodeBus]; split <;> rfl
  | tick | hout | reset | kill => rfl

/-- A key write among the requests is a data write on part 0 while 0x28 is latched (44 R151, R156). -/
theorem isKeyWrite_request {r : Request} {s : State} {v : Byte} (h : IsKeyWrite (decodeRequest r) s v) :
    r = .bus (mkBusWord .part0 0#1 v) ∧ s.chip.addrLatch.get .part0 = 0x28#8 := by
  obtain hkey | ⟨p, hdw, hdec⟩ := h
  · have := decodeRequest_isRegWrite r
    rw [hkey] at this
    cases this
  · rw [decodeRegWord_mk] at hdec
    obtain ⟨rfl, hlatch, -⟩ := decodeReg_wrKey hdec
    have henc := encode_decodeRequest r
    rw [hdw] at henc
    exact ⟨(Encoded.request.inj henc).symm, hlatch⟩

theorem pullOne_keeps_off (c : Chan) (k : SlotIx) (chip : Chip) (h : ((chip.ch.get c).slot.get k).egState = .off) :
    (((pullOne cfg chip).ch.get c).slot.get k).egState = .off := by
  rw [pullOne_ch, tickChannel_slot, advancePhase_egState, egTick_off cfg _ h, h]

/-- An Off slot that an operation has made leave Off was keyed on by a key write. -/
theorem exec_leaves_off {i : Instr} {s t : State} {c : Chan} {k : SlotIx} (h : exec i s = .next t)
    (hoff : (s.slot c k).egState = .off) (hon : (t.slot c k).egState ≠ .off) :
    ∃ v, IsKeyWrite i s v ∧ keyChannel (v.extractLsb' 0 3) = some c ∧ keyBit v (opOfSlot k) = true := by
  cases exec_effect h with
  | address p v hi => exact absurd hoff hon
  | params f hf hi => exact absurd ((hf.egState s.chip c k).trans hoff) hon
  | key v hi =>
    rw [slot_keyEffect] at hon
    split at hon
    next hc =>
      refine ⟨v, hi, hc, ?_⟩
      obtain hsame | ⟨hbit, -⟩ | ⟨-, hkeyed, -⟩ := keySlot_cases v k (s.slot c k)
      · rw [hsame] at hon; exact absurd hoff hon
      · exact hbit
      · rw [hoff] at hkeyed; cases hkeyed
    next => exact absurd hoff hon
  | tick hi ha => exact absurd (pullOne_keeps_off c k s.chip hoff) hon
  | hout ratio hi u hu => exact absurd (pull_invariant cfg _ (pullOne_keeps_off c k) _ hu hoff) hon
  | reset hi =>
    refine absurd ?_ hon
    simp [State.slot, State.channel, resetSlot]
  | kill hi => exact absurd (congrArg Slot.egState (killed_slot s.chip c k)) hon

/-- Settles O13: a step that lets a slot leave Off performs an operation that does. -/
theorem onlyKeyOnLeavesOff : Obligations.OnlyKeyOnLeavesOff := by
  intro s t c k h hoff hon
  obtain ⟨-, hidle⟩ | ⟨r, rest, hin, hstep⟩ := step_cases s
  · rw [hidle] at h
    cases h
    exact absurd hoff hon
  · rw [hstep, retire_next] at h
    obtain ⟨u, hu, rfl⟩ := h
    obtain ⟨v, hkey, hc, hbit⟩ := exec_leaves_off hu hoff hon
    obtain ⟨rfl, hlatch⟩ := isKeyWrite_request hkey
    obtain ⟨h3, hcv⟩ := (keyChannel_eq_some v c).1 hc
    exact ⟨v, rest, hin, hlatch, hcv, h3, hbit⟩

/-! ## Parameter registers and pitch -/

/-- Settles O14 (10_state section 2): of the effects only the parameter and key writes, which a request reaches as a
data write, change parameter registers, and only the address write changes an address latch. -/
theorem parametersChangeOnlyByDataWrites : Obligations.ParametersChangeOnlyByDataWrites := by
  intro s t r rest hin h hr
  rw [step_of_request hin, retire_next] at h
  obtain ⟨u, hu, rfl⟩ := h
  cases exec_effect hu with
  | address p v hi => exact ⟨fun _ => .refl s.chip, fun haw => absurd hi (haw p v)⟩
  | params f hf hi =>
    refine ⟨fun hdw => ?_, fun _ => hf.addrLatch _⟩
    obtain hreg | ⟨p, v, hi⟩ := hi
    · rw [decodeRequest_isRegWrite] at hreg; cases hreg
    · exact absurd hi (hdw p v)
  | key v hi =>
    refine ⟨fun hdw => ?_, fun _ => keyEffect_addrLatch v _⟩
    obtain hkey | ⟨p, hi, -⟩ := hi
    · have := decodeRequest_isRegWrite r
      rw [hkey] at this
      cases this
    · exact absurd hi (hdw p v)
  | tick hi ha => exact ⟨fun _ => tickChip_sameParams s.chip, fun _ => rfl⟩
  | hout ratio hi c hc =>
    have hparams := pull_sameParams hc
    have hlatch := pull_addrLatch hc
    exact ⟨fun _ => hparams, fun _ => hlatch⟩
  | reset hi =>
    cases r with
    | reset => exact absurd rfl hr
    | bus w => have he := encode_decodeRequest (.bus w); rw [hi] at he; cases he
    | tick | hout | kill => cases hi
  | kill hi => exact ⟨fun _ => killed_sameParams s.chip, fun _ => rfl⟩

/-- What gives a slot of a channel its pitch agrees: block, F-number, detune and multiple (43 R136, R141). -/
theorem pitch_congr {s t : State} {c : Chan} {P : SlotIx → Prop} (hblock : (t.channel c).block = (s.channel c).block)
    (hfnum : (t.channel c).fnum = (s.channel c).fnum)
    (hslot : ∀ k, P k → (t.slot c k).dt = (s.slot c k).dt ∧ (t.slot c k).mul = (s.slot c k).mul) :
    keyCode cfg (t.channel c) = keyCode cfg (s.channel c) ∧
      ∀ k, P k → phaseInc cfg (t.channel c) (t.slot c k) = phaseInc cfg (s.channel c) (s.slot c k) :=
  ⟨keyCode_congr cfg hblock hfnum, fun k hk => phaseInc_congr cfg hblock hfnum (hslot k hk).1 (hslot k hk).2⟩

/-- A write of one slot moves the pitch of that slot only, and only through `dt` and `mul`. -/
theorem pitch_of_writeSlot {s t : State} {c d : Chan} {j : SlotIx} {f : Slot → Slot} {P : SlotIx → Prop}
    (h : writeSlot s d j f = .next t)
    (hf : ∀ k, P k → d = c → j = k → ∀ sl, (f sl).dt = sl.dt ∧ (f sl).mul = sl.mul) :
    keyCode cfg (t.channel c) = keyCode cfg (s.channel c) ∧
      ∀ k, P k → phaseInc cfg (t.channel c) (t.slot c k) = phaseInc cfg (s.channel c) (s.slot c k) := by
  obtain ⟨-, rfl⟩ := writeSlot_next.1 h
  obtain ⟨-, -, hblock, hfnum, -⟩ := s.chip.modifySlot_sameRegs d c j f
  refine pitch_congr hblock hfnum fun k hk => ?_
  have hslot : (s.withChip (s.chip.modifySlot d j f)).slot c k =
      if c = d ∧ k = j then f (s.slot d j) else s.slot c k := Chip.modifySlot_slot s.chip d c j k f
  rw [hslot]
  split
  next hit =>
    obtain ⟨rfl, rfl⟩ := hit
    exact hf k hk rfl rfl _
  next => exact ⟨rfl, rfl⟩

/-- A write of one channel's registers moves the pitch of that channel only, and only through block and F-number. -/
theorem pitch_of_writeChannel {s t : State} {c d : Chan} {f : Channel → Channel} {P : SlotIx → Prop}
    (h : writeChannel s d f = .next t) (hslot : ∀ ch, (f ch).slot = ch.slot)
    (hf : d = c → ∀ ch, (f ch).block = ch.block ∧ (f ch).fnum = ch.fnum) :
    keyCode cfg (t.channel c) = keyCode cfg (s.channel c) ∧
      ∀ k, P k → phaseInc cfg (t.channel c) (t.slot c k) = phaseInc cfg (s.channel c) (s.slot c k) := by
  obtain ⟨-, rfl⟩ := writeChannel_next.1 h
  have hch : (s.withChip (s.chip.modifyChannel d f)).channel c = if c = d then f (s.channel d) else s.channel c :=
    Chip.modifyChannel_ch s.chip d c f
  by_cases hcd : c = d
  · subst hcd
    rw [if_pos rfl] at hch
    refine pitch_congr (by rw [hch, (hf rfl _).1]) (by rw [hch, (hf rfl _).2]) fun k _ => ?_
    rw [State.slot, hch, hslot]
    exact ⟨rfl, rfl⟩
  · rw [if_neg hcd] at hch
    refine pitch_congr (by rw [hch]) (by rw [hch]) fun k _ => ?_
    rw [State.slot, hch]
    exact ⟨rfl, rfl⟩

theorem pitch_of_sameParams {s t : State} {c : Chan} {P : SlotIx → Prop} (h : t.chip.SameParams s.chip) :
    keyCode cfg (t.channel c) = keyCode cfg (s.channel c) ∧
      ∀ k, P k → phaseInc cfg (t.channel c) (t.slot c k) = phaseInc cfg (s.channel c) (s.slot c k) := by
  obtain ⟨hkey, hinc⟩ := (h.1 c).pitch
  exact ⟨hkey, fun k _ => hinc k⟩

theorem keySlot_sameParams (v : Byte) (k : SlotIx) (sl : Slot) : (keySlot cfg v k sl).SameParams sl := by
  obtain h | ⟨-, -, h⟩ | ⟨-, -, h⟩ := keySlot_cases v k sl <;> rw [h] <;> simp [Slot.SameParams]

theorem keyEffect_sameParams (v : Byte) (chip : Chip) : (keyEffect v chip).SameParams chip := by
  refine ⟨fun c => ⟨fun k => ?_, ?_⟩, by rw [keyEffect_eq], by rw [keyEffect_eq], by rw [keyEffect_eq]⟩
  · rw [keyEffect_slot]
    split
    · exact keySlot_sameParams v k _
    · simp [Slot.SameParams]
  · rw [keyEffect_channel]
    simp

/-- Settles O33 (43 R143): one case for each operation. -/
theorem pitchChangesOnlyByItsWrites : Obligations.PitchChangesOnlyByItsWrites := by
  intro i s t h hreset hdw c hfnlo
  cases i with
  | aw p v =>
    obtain ⟨-, rfl⟩ := writeChip_next.1 ((exec_aw p v s).symm.trans h)
    exact pitch_of_sameParams (.refl s.chip)
  | dw p v => exact absurd rfl (hdw p v)
  | wrLfo v =>
    obtain ⟨-, rfl⟩ := writeChip_next.1 ((exec_wrLfo v s).symm.trans h)
    exact ⟨rfl, fun _ _ => rfl⟩
  | wrFnhi p n v =>
    obtain ⟨-, rfl⟩ := writeChip_next.1 ((exec_wrFnhi p n v s).symm.trans h)
    exact ⟨rfl, fun _ _ => rfl⟩
  | wrIgnored p reg v =>
    obtain ⟨-, rfl⟩ := writeChip_next.1 ((exec_wrIgnored p reg v s).symm.trans h)
    exact ⟨rfl, fun _ _ => rfl⟩
  | wrKey v =>
    obtain ⟨-, rfl⟩ := writeChip_next.1 ((exec_wrKey v s).symm.trans h)
    exact pitch_of_sameParams (keyEffect_sameParams v s.chip)
  | wrDtmul p j n v =>
    refine pitch_of_writeSlot h fun k hk hd hj => ?_
    subst hj
    exact absurd hd (hk p n v rfl)
  | wrTl p j n v | wrKsar p j n v | wrAmdr p j n v | wrSr p j n v | wrSlrr p j n v | wrSsgeg p j n v =>
    exact pitch_of_writeSlot h fun _ _ _ _ _ => ⟨rfl, rfl⟩
  | wrFnlo p n v => exact pitch_of_writeChannel h (fun _ => rfl) fun hd => absurd hd (hfnlo p n v rfl)
  | wrFbalg p n v | wrPansens p n v => exact pitch_of_writeChannel h (fun _ => rfl) fun _ _ => ⟨rfl, rfl⟩
  | tick =>
    obtain ⟨-, -, rfl⟩ := exec_tick_next.1 h
    exact pitch_of_sameParams (tickChip_sameParams s.chip)
  | hout ratio =>
    obtain ⟨-, u, hu, rfl⟩ := exec_hout_next.1 h
    have hparams := pull_sameParams hu
    exact pitch_of_sameParams hparams
  | reset => exact absurd rfl hreset
  | kill =>
    obtain ⟨-, rfl⟩ := writeChip_next.1 ((exec_kill s).symm.trans h)
    exact pitch_of_sameParams (killed_sameParams s.chip)

end Sys2Proof.Machine

/-!
Registers that a tick does not read (10_state R11 to R13, 45 R191): clearing them commutes with every unit, so neither
the registers that nothing reads nor the enables of an admitted tick can be told from what a tick hands back.
-/

namespace Sys2Proof.Machine

/-! ## Forgetting registers that no unit reads -/

/-- A slot whose `am`, `ssgEn` and `ssgMode` are replaced by a function of the three. -/
def Slot.forget (φ : Bool × Bool × BitVec 3 → Bool × Bool × BitVec 3) (sl : Slot) : Slot :=
  { sl with
    am := (φ (sl.am, sl.ssgEn, sl.ssgMode)).1
    ssgEn := (φ (sl.am, sl.ssgEn, sl.ssgMode)).2.1
    ssgMode := (φ (sl.am, sl.ssgEn, sl.ssgMode)).2.2 }

/-- A channel whose slots forget by `φ` and whose `ams` and `fms` are replaced by a function of the two. -/
def Channel.forget (φ : Bool × Bool × BitVec 3 → Bool × Bool × BitVec 3)
    (ψ : BitVec 2 × BitVec 3 → BitVec 2 × BitVec 3) (ch : Channel) : Channel :=
  { ch with slot := ch.slot.map (Slot.forget φ), ams := (ψ (ch.ams, ch.fms)).1, fms := (ψ (ch.ams, ch.fms)).2 }

section
variable (g : Cfg) (φ : Bool × Bool × BitVec 3 → Bool × Bool × BitVec 3)
  (ψ : BitVec 2 × BitVec 3 → BitVec 2 × BitVec 3)

theorem egTick_forget (kc : BitVec 5) (sl : Slot) :
    egTick g kc (sl.forget φ) = (egTick g kc sl).forget φ := by
  unfold egTick
  rw [show (sl.forget φ).egState = sl.egState from rfl]
  split <;> rfl

theorem Channel.forget_slot (ch : Channel) (k : SlotIx) :
    (ch.forget φ ψ).slot.get k = (ch.slot.get k).forget φ := by
  simp [Channel.forget]

theorem egTickChannel_forget (ch : Channel) :
    egTickChannel g (ch.forget φ ψ) = (egTickChannel g ch).forget φ ψ := by
  have hslot : (ch.slot.map (Slot.forget φ)).map (egTick g (keyCode g ch)) =
      (ch.slot.map (egTick g (keyCode g ch))).map (Slot.forget φ) := by
    apply Bank4.ext_get
    intro k
    simp only [Bank4.get_map, egTick_forget]
  calc egTickChannel g (ch.forget φ ψ)
      = { ch.forget φ ψ with slot := (ch.slot.map (Slot.forget φ)).map (egTick g (keyCode g ch)) } := rfl
    _ = (egTickChannel g ch).forget φ ψ := by rw [hslot]; rfl

theorem opOutput_forget (sl : Slot) (m : Int) : opOutput g (sl.forget φ) m = opOutput g sl m := rfl

theorem route_forget (ch : Channel) :
    route g (ch.forget φ ψ) = ((route g ch).1.forget φ ψ, (route g ch).2) := by
  have e1 : opOut1 g (ch.forget φ ψ) = opOut1 g ch := by
    rw [opOut1, Channel.forget_slot, opOutput_forget]; rfl
  have e2 : opOut2 g (ch.forget φ ψ) = opOut2 g ch := by
    rw [opOut2, Channel.forget_slot, opOutput_forget, e1]; rfl
  have e3 : opOut3 g (ch.forget φ ψ) = opOut3 g ch := by
    rw [opOut3, Channel.forget_slot, opOutput_forget, e1, e2]; rfl
  have e4 : opOut4 g (ch.forget φ ψ) = opOut4 g ch := by
    rw [opOut4, Channel.forget_slot, opOutput_forget, e1, e2, e3]; rfl
  apply Prod.ext
  · rw [route_channel, route_channel, e1]
    rfl
  · rw [route_sample, route_sample, e1, e2, e3, e4]
    rfl

theorem tickChannel_forget (ch : Channel) :
    tickChannel g (ch.forget φ ψ) = ((tickChannel g ch).1.forget φ ψ, (tickChannel g ch).2) := by
  rw [tickChannel, egTickChannel_forget, route_forget]
  rfl

theorem mix_forget (r : Bank6 (Channel × Int)) : mix (r.map fun x => (x.1.forget φ ψ, x.2)) = mix r := rfl

/-- A tick of the block whose channels have forgotten, whatever the LFO register. -/
theorem tickChip_forget (chip : Chip) (lfoEnable : Bool) (lfoFreq : BitVec 3) :
    tickChip g
        { chip with ch := chip.ch.map (Channel.forget φ ψ), lfoEnable := lfoEnable, lfoFreq := lfoFreq } =
      ({ (tickChip g chip).1 with
          ch := (tickChip g chip).1.ch.map (Channel.forget φ ψ), lfoEnable := lfoEnable, lfoFreq := lfoFreq },
        (tickChip g chip).2) := by
  have hmap : (chip.ch.map (Channel.forget φ ψ)).map (tickChannel g) =
      (chip.ch.map (tickChannel g)).map fun x => (x.1.forget φ ψ, x.2) := by
    apply Bank6.ext_get
    intro c
    simp only [Bank6.get_map, tickChannel_forget]
  simp only [tickChip, hmap, mix_forget]
  generalize chip.ch.map (tickChannel g) = r
  rfl

end

/-! ## What nothing reads -/

/-- `Chip.visible` forgets `am`, `ssgMode`, `ams`, `fms` and `lfoFreq`. -/
theorem tickChip_visible (g : Cfg) (chip : Chip) :
    tickChip g chip.visible = ((tickChip g chip).1.visible, (tickChip g chip).2) :=
  tickChip_forget g (fun r => (false, r.2.1, 0)) (fun _ => (0, 0)) chip chip.lfoEnable 0

/-- Admission reads the two kinds of enables, which are visible (45 R191). -/
theorem admission_visible (chip : Chip) : admission cfg chip.visible = admission cfg chip := rfl

theorem tick_visible (chip : Chip) :
    tick cfg chip.visible = (tick cfg chip).map fun r => (r.1.visible, r.2) := by
  rw [tick, admission_visible, tickChip_visible, tick]
  cases admission cfg chip <;> rfl

theorem pull_visible (n : Nat) (chip : Chip) :
    pull cfg n chip.visible = (pull cfg n chip).map Chip.visible := by
  induction n generalizing chip with
  | zero => rfl
  | succ n ih =>
    rw [pull, tick_visible, pull]
    cases tick cfg chip with
    | error r => rfl
    | ok r => exact ih { r.1 with rs := r.1.rs.shift cfg r.2 }

theorem hout_visible (ratio : Nat) (chip : Chip) :
    hout cfg ratio chip.visible = (hout cfg ratio chip).map fun r => (r.1.visible, r.2) := by
  rw [hout, show ticksDue cfg chip.visible = ticksDue cfg chip from rfl, pull_visible, hout]
  cases pull cfg (ticksDue cfg chip) chip <;> rfl

/-- The state with the registers that nothing reads cleared. -/
def State.visible (s : State) : State := s.withChip s.chip.visible

section
variable (s : State)
theorem State.visible_chip : s.visible.chip = s.chip.visible := rfl
theorem State.visible_live : s.visible.live = s.live := rfl
theorem State.visible_inputs : s.visible.inputs = s.inputs := rfl
theorem State.visible_outputs : s.visible.outputs = s.outputs := rfl
end

/-- The answer with the registers that nothing reads cleared in its next state. -/
def visibleResult : Result → Result
  | .next t => .next t.visible
  | .fault f => .fault f
  | .refused f => .refused f

theorem visibleResult_eq_next {r : Result} {t : State} :
    visibleResult r = visibleResult (.next t) ↔ ∃ t', r = .next t' ∧ t'.visible = t.visible := by
  cases r <;> simp [visibleResult]

theorem visibleResult_eq_fault {r : Result} {f : Fault} : visibleResult r = .fault f ↔ r = .fault f := by
  cases r <;> simp [visibleResult]

theorem visibleResult_eq_refused {r : Result} {f : Refusal} : visibleResult r = .refused f ↔ r = .refused f := by
  cases r <;> simp [visibleResult]

theorem answer_visible (s : State) (r : Except Refusal (Chip × Pair)) :
    answer s.visible (r.map fun x => (x.1.visible, x.2)) = visibleResult (answer s r) := by
  cases r <;> rfl

theorem visibleResult_idem (r : Result) : visibleResult (visibleResult r) = visibleResult r := by
  cases r <;> rfl

theorem writeChip_visible {f : Chip → Chip} (hf : ReadsVisible f) (s : State) :
    visibleResult (writeChip s.visible f) = visibleResult (writeChip s f) := by
  cases hl : s.live with
  | false => rw [writeChip, writeChip, whenLive_dead (by exact hl), whenLive_dead hl]
  | true =>
    rw [writeChip_live (by exact hl), writeChip_live hl]
    change Host.Outcome.next (s.withChip (f s.chip.visible).visible) = .next (s.withChip (f s.chip).visible)
    rw [hf]

theorem exec_regWrite_visible {i : Instr} (hi : i.isRegWrite = true) (s : State) :
    visibleResult (exec i s.visible) = visibleResult (exec i s) := by
  obtain ⟨f, he, -, -, hf⟩ := exec_regWrite_frame hi
  rw [he, he, writeChip_visible hf]

/-- Every operation sees only what is visible: one case for each way to answer. -/
theorem exec_visible (i : Instr) (s : State) : visibleResult (exec i s.visible) = visibleResult (exec i s) := by
  by_cases hreset : i = .reset
  · subst hreset
    rfl
  cases hl : s.live with
  | false => rw [exec_dead (s := s.visible) hl hreset, exec_dead hl hreset]
  | true =>
    cases i with
    | aw p v =>
      rw [exec_aw, exec_aw]
      exact writeChip_visible (fun _ => rfl) s
    | dw p v =>
      rw [exec_dw_eq p v s hl, exec_dw_eq p v s.visible hl]
      exact exec_regWrite_visible (decodeReg_isRegWrite _ _ _) s
    | tick =>
      rw [exec_tick_live hl, exec_tick_live (s := s.visible) hl, State.visible_chip, tick_visible, answer_visible,
        visibleResult_idem]
    | hout ratio =>
      rw [exec_hout_live hl, exec_hout_live (s := s.visible) hl, State.visible_chip, hout_visible, answer_visible,
        visibleResult_idem]
    | reset => exact absurd rfl hreset
    | kill =>
      rw [exec_kill, exec_kill]
      exact writeChip_visible (fun _ => rfl) s
    | _ => exact exec_regWrite_visible rfl s

theorem retire_visible (r : Result) : visibleResult (retire r) = retire (visibleResult r) := by
  cases r <;> rfl

theorem step_visible (s : State) : visibleResult (step s.visible) = visibleResult (step s) := by
  rw [step, step, show s.visible.fetch = s.fetch from rfl]
  cases s.fetch with
  | none => rfl
  | some i =>
    change visibleResult (retire (exec i s.visible)) = visibleResult (retire (exec i s))
    rw [retire_visible, exec_visible, retire_visible]

/-- Settles O15 (10_state R11 to R13): the step of either state shows the step of their common visible state. -/
theorem unreadRegistersAreUnobservable : Obligations.UnreadRegistersAreUnobservable := by
  intro s s' hchip hlive hin hout
  have hsame : s.visible = s'.visible := by
    simp only [State.visible, State.withChip, hchip, hlive, hin, hout]
  have hstep : visibleResult (step s') = visibleResult (step s) := by
    rw [← step_visible s, hsame, step_visible s']
  refine ⟨fun t ht => ?_, fun f hf => ?_, fun f hf => ?_⟩
  · rw [ht, visibleResult_eq_next] at hstep
    obtain ⟨t', ht', hvis⟩ := hstep
    exact ⟨t', ht', by rw [← State.visible_chip, ← hvis, State.visible_chip],
      by rw [← State.visible_live, ← hvis, State.visible_live],
      by rw [← State.visible_inputs, ← hvis, State.visible_inputs],
      by rw [← State.visible_outputs, ← hvis, State.visible_outputs]⟩
  · rw [hf] at hstep
    exact visibleResult_eq_fault.1 hstep
  · rw [hf] at hstep
    exact visibleResult_eq_refused.1 hstep

/-! ## Admission -/

/-- A tick is admitted when every enable that is set has the policy `ignore` (45 R191). -/
theorem admission_ignored {g : Cfg} {chip : Chip} (hlfo : chip.lfoEnable = true → g.lfoPolicy = .ignore)
    (hssg : (∃ c k, ((chip.ch.get c).slot.get k).ssgEn = true) → g.ssgPolicy = .ignore) : admission g chip = none := by
  have h1 : ¬(chip.lfoEnable = true ∧ g.lfoPolicy = .refuse) := fun ⟨he, hp⟩ => by
    rw [hlfo he] at hp
    cases hp
  have h2 : ¬(chip.anySsg = true ∧ g.ssgPolicy = .refuse) := fun ⟨he, hp⟩ => by
    rw [hssg (chip.anySsg_eq_true.1 he)] at hp
    cases hp
  rw [admission, if_neg h1, if_neg h2]

theorem tick_admitted {g : Cfg} {chip : Chip} (h : admission g chip = none) : tick g chip = .ok (tickChip g chip) := by
  rw [tick, h]

theorem admission_withoutEnables (g : Cfg) (chip : Chip) : admission g chip.withoutEnables = none := by
  refine admission_ignored (fun h => by cases h) fun ⟨c, k, h⟩ => ?_
  rw [Chip.withoutEnables_ch, Channel.withoutEnables_slot] at h
  cases h

/-- `Chip.withoutEnables` forgets `ssgEn` and `lfoEnable`. -/
theorem tickChip_withoutEnables (g : Cfg) (chip : Chip) :
    tickChip g chip.withoutEnables = ((tickChip g chip).1.withoutEnables, (tickChip g chip).2) :=
  tickChip_forget g (fun r => (r.1, false, r.2.2)) id chip false chip.lfoFreq

/-- Settles O53 (45 R191). -/
theorem tickAdmission : Obligations.TickAdmission := by
  refine ⟨fun s hl hlfo => ?_, fun s hl hlfo hssg => ?_, fun g chip hlfo hssg => ?_⟩
  · have ha : admission cfg s.chip = some .lfoNotInSource := if_pos ⟨hlfo, rfl⟩
    rw [exec_tick_live hl, tick, ha]
    rfl
  · have ha : admission cfg s.chip = some .ssgNotInSource := by
      rw [admission, if_neg (by simp [hlfo]), if_pos ⟨s.chip.anySsg_eq_true.2 hssg, rfl⟩]
    rw [exec_tick_live hl, tick, ha]
    rfl
  · refine ⟨(tickChip g chip).1, (tickChip g chip).2, tick_admitted (admission_ignored hlfo hssg), ?_, rfl,
      fun c k => ?_⟩
    · rw [tick_admitted (admission_withoutEnables g chip), tickChip_withoutEnables]
    · rw [tickChip_ch, tickChannel_slot]
      exact egTick_ssgEn g _ _

end Sys2Proof.Machine

/-!
The operator function (41_operator R113): the shaped free function has every named property and reaches every function
that has them; the exact real function has them too, and the sample values of the table.
-/

namespace Sys2Proof.Machine

/-! ## Phases of the symmetries -/

theorem half_toNat : (BitVec.ofNat 32 (2 ^ 31)).toNat = 2147483648 := rfl

theorem phase_neg_toNat {theta : BitVec 32} (h : theta ≠ 0) : (-theta).toNat = 4294967296 - theta.toNat := by
  have hlt : theta.toNat < 4294967296 := theta.isLt
  have hpos : theta.toNat ≠ 0 := fun h0 => h (BitVec.eq_of_toNat_eq h0)
  rw [BitVec.toNat_neg]
  omega

theorem phase_half_toNat (theta : BitVec 32) :
    (theta + BitVec.ofNat 32 (2 ^ 31)).toNat =
      if theta.toNat < 2147483648 then theta.toNat + 2147483648 else theta.toNat - 2147483648 := by
  have hlt : theta.toNat < 4294967296 := theta.isLt
  rw [BitVec.toNat_add, half_toNat]
  split <;> omega

theorem phase_mirror_toNat {theta : BitVec 32} (h : theta.toNat ≤ 2147483648) :
    (BitVec.ofNat 32 (2 ^ 31) - theta).toNat = 2147483648 - theta.toNat := by
  rw [BitVec.toNat_sub, half_toNat]
  omega

/-! ## The shaped free function -/

section
variable (theta : BitVec 32)

theorem quarterPhase_neg : quarterPhase (-theta) = quarterPhase theta := by
  by_cases h : theta = 0
  · subst h
    rfl
  · have hlt : theta.toNat < 4294967296 := theta.isLt
    simp only [quarterPhase, phase_neg_toNat h]
    omega

theorem quarterPhase_half : quarterPhase (theta + BitVec.ofNat 32 (2 ^ 31)) = quarterPhase theta := by
  apply quarterPhase_congr
  rw [phase_half_toNat]
  split <;> omega

theorem quarterPhase_mirror (h : theta.toNat ≤ 2147483648) :
    quarterPhase (BitVec.ofNat 32 (2 ^ 31) - theta) = quarterPhase theta := by
  simp only [quarterPhase, phase_mirror_toNat h]
  omega

theorem quarterPhase_eq_zero : quarterPhase theta = 0 ↔ theta.toNat = 0 ∨ theta.toNat = 2147483648 := by
  have hlt : theta.toNat < 4294967296 := theta.isLt
  simp only [quarterPhase]
  omega

end

/-- No clause of the shaping silences this phase and attenuation. -/
def audible (quiet : Nat) (theta : BitVec 32) (a : Nat) : Prop :=
  a ≤ quiet ∧ a < inaudibleFrom ∧ quarterPhase theta ≠ 0

section
variable (raw : Nat → Nat → Nat) (peak quiet : Nat)

theorem opWaveOf_inaudible {theta : BitVec 32} {a : Nat} (h : ¬audible quiet theta a) :
    opWaveOf raw peak quiet theta a = 0 := by
  apply if_pos
  unfold audible at h
  omega

theorem opWaveOf_audible {theta : BitVec 32} {a : Nat} (h : audible quiet theta a) :
    opWaveOf raw peak quiet theta a =
      if theta.toNat < 2147483648 then (waveMagnitudeOf raw peak (quarterPhase theta) a : Int)
      else -(waveMagnitudeOf raw peak (quarterPhase theta) a : Int) := by
  apply if_neg
  unfold audible at h
  omega

/-- Two phases of one quarter phase in the same half cycle. -/
theorem opWaveOf_eq_of_same_half {t u : BitVec 32} (hq : quarterPhase t = quarterPhase u)
    (hhalf : quarterPhase u ≠ 0 → (t.toNat < 2147483648 ↔ u.toNat < 2147483648)) (a : Nat) :
    opWaveOf raw peak quiet t a = opWaveOf raw peak quiet u a := by
  by_cases h : audible quiet u a
  · have ht : audible quiet t a := by rwa [audible, hq]
    rw [opWaveOf_audible raw peak quiet h, opWaveOf_audible raw peak quiet ht, hq]
    simp only [hhalf h.2.2]
  · rw [opWaveOf_inaudible raw peak quiet h, opWaveOf_inaudible raw peak quiet]
    rwa [audible, hq]

/-- Two phases of one quarter phase in opposite half cycles. -/
theorem opWaveOf_neg_of_other_half {t u : BitVec 32} (hq : quarterPhase t = quarterPhase u)
    (hhalf : quarterPhase u ≠ 0 → (t.toNat < 2147483648 ↔ ¬u.toNat < 2147483648)) (a : Nat) :
    opWaveOf raw peak quiet t a = -opWaveOf raw peak quiet u a := by
  by_cases h : audible quiet u a
  · have ht : audible quiet t a := by rwa [audible, hq]
    rw [opWaveOf_audible raw peak quiet h, opWaveOf_audible raw peak quiet ht, hq]
    have hh := hhalf h.2.2
    split <;> split <;> omega
  · rw [opWaveOf_inaudible raw peak quiet h, opWaveOf_inaudible raw peak quiet, Int.neg_zero]
    rwa [audible, hq]

theorem opWaveOf_natAbs {theta : BitVec 32} {a : Nat} (h : audible quiet theta a) :
    (opWaveOf raw peak quiet theta a).natAbs = waveMagnitudeOf raw peak (quarterPhase theta) a := by
  rw [opWaveOf_audible raw peak quiet h]
  split <;> omega

end

/-- Whatever the free magnitude, the shaped function has every named property of 41 R113 (log entry 6). -/
theorem opWaveOf_laws (raw : Nat → Nat → Nat) : OpWaveLaws (opWaveOf raw 8191 6143) 8191 6143 6144 where
  bound := opWaveOf_bound raw 8191 6143
  zeroPhase a := by
    constructor <;> apply opWaveOf_inaudible <;> rintro ⟨-, -, hq⟩ <;> exact hq rfl
  odd theta a := by
    refine opWaveOf_neg_of_other_half raw 8191 6143 (quarterPhase_neg theta) (fun hq => ?_) a
    have hlt : theta.toNat < 4294967296 := theta.isLt
    rw [Ne, quarterPhase_eq_zero] at hq
    rw [phase_neg_toNat (by rintro rfl; exact hq (.inl rfl))]
    omega
  half theta a := by
    refine opWaveOf_neg_of_other_half raw 8191 6143 (quarterPhase_half theta) (fun _ => ?_) a
    have hlt : theta.toNat < 4294967296 := theta.isLt
    rw [phase_half_toNat]
    split <;> omega
  mirror theta a h := by
    refine opWaveOf_eq_of_same_half raw 8191 6143 (quarterPhase_mirror theta h) (fun hq => ?_) a
    rw [Ne, quarterPhase_eq_zero] at hq
    rw [phase_mirror_toNat h]
    omega
  sign theta a := by
    by_cases h : audible 6143 theta a
    · have hq := h.2.2
      rw [Ne, quarterPhase_eq_zero] at hq
      rw [opWaveOf_audible raw 8191 6143 h]
      split <;> omega
    · rw [opWaveOf_inaudible raw 8191 6143 h]
      exact ⟨fun _ => le_refl _, fun _ => le_refl _⟩
  atPeak := ⟨rfl, rfl⟩
  monoAtt theta a b hab := by
    by_cases hb : audible 6143 theta b
    · have ha : audible 6143 theta a := ⟨hab.trans hb.1, hab.trans_lt hb.2.1, hb.2.2⟩
      rw [opWaveOf_natAbs raw 8191 6143 hb, opWaveOf_natAbs raw 8191 6143 ha]
      exact waveMagnitudeOf_anti raw 8191 _ hab
    · rw [opWaveOf_inaudible raw 8191 6143 hb]
      exact Nat.zero_le _
  quietZero theta a h := opWaveOf_zero raw 8191 6143 theta (.inl h)
  quietPeak _ theta a h := opWaveOf_zero raw 8191 6143 theta (.inr h)
  silent theta := opWaveOf_zero raw 8191 6143 theta (.inl (by decide))

/-- Settles O42 (00_scope R4). -/
theorem machineConfigurationAdmissible : Obligations.MachineConfigurationAdmissible where
  envMaxPos := by decide
  envMaxFour := by decide
  envMaxTop := by decide
  peakFits := by decide
  quietTop := by decide
  quietLow _ := by decide
  ratioBits := rfl
  wave := opWaveOf_laws _

/-! ## The free magnitude of a function with the named properties -/

/-- The magnitude of `f` in the first quarter cycle. -/
def quarterMagnitude (f : BitVec 32 → Nat → Int) (quarter a : Nat) : Nat := (f (BitVec.ofNat 32 quarter) a).natAbs

section
variable {f : BitVec 32 → Nat → Int} (hf : OpWaveLaws f 8191 6143 6144)
include hf

/-- Shaping leaves such a magnitude as it is. -/
theorem waveMagnitudeOf_quarterMagnitude (quarter a : Nat) :
    waveMagnitudeOf (quarterMagnitude f) 8191 quarter a = quarterMagnitude f quarter a := by
  induction a with
  | zero =>
    have hbound := hf.bound (BitVec.ofNat 32 quarter) 0
    unfold waveMagnitudeOf
    split
    next h =>
      subst h
      rw [quarterMagnitude, hf.atPeak.1]
      rfl
    next =>
      unfold quarterMagnitude
      omega
  | succ a ih =>
    rw [waveMagnitudeOf, ih]
    exact Nat.min_eq_right (hf.monoAtt _ _ _ (Nat.le_succ a))

/-- In the first half cycle the function is its quarter magnitude, by mirror and sign. -/
theorem eq_quarterMagnitude_of_first_half {theta : BitVec 32} (h : theta.toNat ≤ 2147483648) (a : Nat) :
    f theta a = quarterMagnitude f (quarterPhase theta) a := by
  have hsign := (hf.sign theta a).1 h
  have hmirror := hf.mirror theta a h
  have hquarter : f (BitVec.ofNat 32 (quarterPhase theta)) a = f theta a := by
    by_cases hq : theta.toNat ≤ 1073741824
    · have htheta : BitVec.ofNat 32 (quarterPhase theta) = theta := by
        apply BitVec.eq_of_toNat_eq
        simp only [quarterPhase, BitVec.toNat_ofNat]
        omega
      rw [htheta]
    · have htheta : BitVec.ofNat 32 (quarterPhase theta) = BitVec.ofNat 32 (2 ^ 31) - theta := by
        apply BitVec.eq_of_toNat_eq
        simp only [quarterPhase, BitVec.toNat_ofNat, phase_mirror_toNat h]
        omega
      rw [htheta, hmirror]
  rw [quarterMagnitude, hquarter]
  omega

/-- In the second half cycle it is the negated quarter magnitude, by half-wave symmetry. -/
theorem eq_neg_quarterMagnitude_of_second_half {theta : BitVec 32} (h : 2147483648 ≤ theta.toNat) (a : Nat) :
    f theta a = -(quarterMagnitude f (quarterPhase theta) a : Int) := by
  have hlt : theta.toNat < 4294967296 := theta.isLt
  have hfirst : (theta + BitVec.ofNat 32 (2 ^ 31)).toNat ≤ 2147483648 := by
    rw [phase_half_toNat]
    split <;> omega
  have hhalf := hf.half theta a
  rw [eq_quarterMagnitude_of_first_half hf hfirst, quarterPhase_half] at hhalf
  omega

end

/-- Settles O44 (93 U9): the quarter magnitude of the function is a free magnitude that gives it back. -/
theorem freeOpWaveCoversAdmissible : Obligations.FreeOpWaveCoversAdmissible := by
  intro f hf
  refine ⟨quarterMagnitude f, funext fun theta => funext fun a => ?_⟩
  by_cases h : audible 6143 theta a
  · rw [opWaveOf_audible _ 8191 6143 h, waveMagnitudeOf_quarterMagnitude hf]
    split
    next hfirst => exact (eq_quarterMagnitude_of_first_half hf hfirst.le a).symm
    next hsecond => exact (eq_neg_quarterMagnitude_of_second_half hf (not_lt.1 hsecond) a).symm
  · rw [opWaveOf_inaudible _ 8191 6143 h]
    by_cases hquiet : 6143 < a
    · exact (hf.quietZero theta a hquiet).symm
    by_cases hinaudible : 5010 ≤ a
    · exact (hf.quietPeak rfl theta a hinaudible).symm
    have hq : quarterPhase theta = 0 := by
      by_contra hq
      exact h ⟨by omega, not_le.1 hinaudible, hq⟩
    obtain h0 | h0 := (quarterPhase_eq_zero theta).1 hq
    · rw [show theta = 0 from BitVec.eq_of_toNat_eq h0, (hf.zeroPhase a).1]
    · rw [show theta = BitVec.ofNat 32 (2 ^ 31) from BitVec.eq_of_toNat_eq h0, (hf.zeroPhase a).2]

end Sys2Proof.Machine

/-! The exact operator function of 41_operator R113, over the reals. -/

namespace Sys2Proof.Machine

/-! ## Truncation toward zero -/

section
variable {x y : ℝ} {m n : Int}

theorem IsTrunc.nonneg (h : IsTrunc x n) (hx : 0 ≤ x) : 0 ≤ n := by
  rw [h.1 hx]
  exact Int.floor_nonneg.2 hx

theorem IsTrunc.nonpos (h : IsTrunc x n) (hx : x ≤ 0) : n ≤ 0 := by
  rcases hx.lt_or_eq with hlt | rfl
  · rw [h.2 hlt]
    exact Int.ceil_le.2 (by exact_mod_cast hx)
  · rw [h.1 le_rfl, Int.floor_zero]

/-- The magnitude of the truncation is the magnitude rounded down. -/
theorem IsTrunc.natAbs (h : IsTrunc x n) : n.natAbs = ⌊|x|⌋₊ := by
  rcases le_or_gt 0 x with hx | hx
  · rw [h.1 hx, abs_of_nonneg hx, ← Int.floor_toNat]
    have := Int.floor_nonneg.2 hx
    omega
  · rw [h.2 hx, abs_of_neg hx, ← Int.floor_toNat, Int.floor_neg]
    have : ⌈x⌉ ≤ 0 := Int.ceil_le.2 (by exact_mod_cast hx.le)
    omega

theorem IsTrunc.eq (hm : IsTrunc x m) (hn : IsTrunc x n) : m = n := by
  rcases le_or_gt 0 x with hx | hx
  · rw [hm.1 hx, hn.1 hx]
  · rw [hm.2 hx, hn.2 hx]

theorem IsTrunc.eq_neg (hm : IsTrunc x m) (hn : IsTrunc (-x) n) : n = -m := by
  have hfloor := hm.natAbs
  have hfloor' := hn.natAbs
  rw [abs_neg] at hfloor'
  rcases le_total 0 x with hx | hx
  · have := hm.nonneg hx
    have := hn.nonpos (by linarith)
    omega
  · have := hm.nonpos hx
    have := hn.nonneg (by linarith)
    omega

theorem IsTrunc.natAbs_le (hm : IsTrunc x m) (hn : IsTrunc y n) (h : |x| ≤ |y|) : m.natAbs ≤ n.natAbs := by
  rw [hm.natAbs, hn.natAbs]
  exact Nat.floor_le_floor h

theorem IsTrunc.eq_of_bounds {k : Nat} (h : IsTrunc x n) (hlo : (k : ℝ) ≤ x) (hhi : x < k + 1) : n = k := by
  have hx : 0 ≤ x := le_trans (Nat.cast_nonneg k) hlo
  rw [h.1 hx, Int.floor_eq_iff]
  exact ⟨by exact_mod_cast hlo, by exact_mod_cast hhi⟩

end

/-! ## The decay with attenuation -/

/-- The amplitude factor of an attenuation in 1/64 dB. -/
noncomputable def decay (a : Nat) : ℝ := (10 : ℝ) ^ (-(a : ℝ) / 1280)

theorem decay_pos (a : Nat) : 0 < decay a := Real.rpow_pos_of_pos (by norm_num) _

theorem decay_zero : decay 0 = 1 := by simp [decay]

theorem decay_anti {a b : Nat} (h : a ≤ b) : decay b ≤ decay a := by
  apply Real.rpow_le_rpow_of_exponent_le (by norm_num)
  have : (a : ℝ) ≤ b := by exact_mod_cast h
  linarith

theorem decay_le_one (a : Nat) : decay a ≤ 1 := decay_zero ▸ decay_anti (Nat.zero_le a)

/-- A power of the factor that is a whole power of ten. -/
theorem decay_pow {a d e : Nat} (h : a * d = 1280 * e) : decay a ^ d * 10 ^ e = 1 := by
  have hexp : -(a : ℝ) / 1280 * d = -(e : ℝ) := by
    have : (a : ℝ) * d = 1280 * e := by exact_mod_cast h
    field_simp
    linarith
  rw [decay, ← Real.rpow_mul_natCast (by norm_num), hexp, Real.rpow_neg (by norm_num), Real.rpow_natCast]
  exact inv_mul_cancel₀ (by positivity)

theorem crest_pos (a : Nat) : 0 < decay a * 8191 := mul_pos (decay_pos a) (by norm_num)

theorem crest_pow {a d e : Nat} (h : a * d = 1280 * e) : (decay a * 8191) ^ d * 10 ^ e = 8191 ^ d := by
  rw [mul_pow, mul_right_comm, decay_pow h, one_mul]

/-- The crest at an attenuation is compared with a number through a power that is a whole power of ten. -/
theorem le_crest {a d e k : Nat} (hd : d ≠ 0) (h : a * d = 1280 * e) (hk : k ^ d * 10 ^ e ≤ 8191 ^ d) :
    (k : ℝ) ≤ decay a * 8191 := by
  have hle : (k : ℝ) ^ d * 10 ^ e ≤ (decay a * 8191) ^ d * 10 ^ e := by
    rw [crest_pow h]
    exact_mod_cast hk
  exact le_of_pow_le_pow_left₀ hd (crest_pos a).le (le_of_mul_le_mul_right hle (by positivity))

theorem crest_lt {a d e k : Nat} (h : a * d = 1280 * e) (hk : 8191 ^ d < k ^ d * 10 ^ e) : decay a * 8191 < k := by
  have hlt : (decay a * 8191) ^ d * 10 ^ e < (k : ℝ) ^ d * 10 ^ e := by
    rw [crest_pow h]
    exact_mod_cast hk
  exact lt_of_pow_lt_pow_left₀ d (Nat.cast_nonneg k) (lt_of_mul_lt_mul_right hlt (by positivity))

/-! ## The angle of a phase -/

/-- The angle of a phase. -/
noncomputable def angle (theta : BitVec 32) : ℝ := 2 * Real.pi * theta.toNat / 2 ^ 32

theorem sin_angle_neg (theta : BitVec 32) : Real.sin (angle (-theta)) = -Real.sin (angle theta) := by
  by_cases h : theta = 0
  · subst h
    simp [angle]
  · have hle : theta.toNat ≤ 4294967296 := theta.isLt.le
    have hangle : angle (-theta) = 2 * Real.pi - angle theta := by
      rw [angle, phase_neg_toNat h, Nat.cast_sub hle, angle]
      push_cast
      ring
    rw [hangle, Real.sin_two_pi_sub]

theorem sin_angle_half (theta : BitVec 32) :
    Real.sin (angle (theta + BitVec.ofNat 32 (2 ^ 31))) = -Real.sin (angle theta) := by
  have hnat := phase_half_toNat theta
  split at hnat
  · have hangle : angle (theta + BitVec.ofNat 32 (2 ^ 31)) = angle theta + Real.pi := by
      rw [angle, hnat, angle]
      push_cast
      ring
    rw [hangle, Real.sin_add_pi]
  next h =>
    have hangle : angle (theta + BitVec.ofNat 32 (2 ^ 31)) = angle theta - Real.pi := by
      rw [angle, hnat, Nat.cast_sub (not_lt.1 h), angle]
      push_cast
      ring
    rw [hangle, Real.sin_sub_pi]

theorem sin_angle_mirror {theta : BitVec 32} (h : theta.toNat ≤ 2147483648) :
    Real.sin (angle (BitVec.ofNat 32 (2 ^ 31) - theta)) = Real.sin (angle theta) := by
  have hangle : angle (BitVec.ofNat 32 (2 ^ 31) - theta) = Real.pi - angle theta := by
    rw [angle, phase_mirror_toNat h, Nat.cast_sub h, angle]
    push_cast
    ring
  rw [hangle, Real.sin_pi_sub]

theorem sin_angle_nonneg {theta : BitVec 32} (h : theta.toNat ≤ 2147483648) : 0 ≤ Real.sin (angle theta) := by
  have hle : (theta.toNat : ℝ) ≤ 2147483648 := by exact_mod_cast h
  have hpi := Real.pi_pos
  apply Real.sin_nonneg_of_nonneg_of_le_pi
  · rw [angle]; positivity
  · rw [angle, div_le_iff₀ (by norm_num)]
    nlinarith

theorem sin_angle_nonpos {theta : BitVec 32} (h : 2147483648 ≤ theta.toNat) : Real.sin (angle theta) ≤ 0 := by
  have hlt : theta.toNat < 4294967296 := theta.isLt
  have hfirst : (theta + BitVec.ofNat 32 (2 ^ 31)).toNat ≤ 2147483648 := by
    rw [phase_half_toNat]
    split <;> omega
  have := sin_angle_nonneg hfirst
  rw [sin_angle_half] at this
  linarith

theorem sin_angle_crest : Real.sin (angle (BitVec.ofNat 32 (2 ^ 30))) = 1 := by
  have hangle : angle (BitVec.ofNat 32 (2 ^ 30)) = Real.pi / 2 := by
    rw [angle, show (BitVec.ofNat 32 (2 ^ 30)).toNat = 1073741824 from rfl]
    push_cast
    ring
  rw [hangle, Real.sin_pi_div_two]

/-! ## The exact function -/

/-- The real operator function before truncation. -/
noncomputable def exactWave (theta : BitVec 32) (a : Nat) : ℝ := Real.sin (angle theta) * decay a * 8191

theorem exactWave_abs (theta : BitVec 32) (a : Nat) :
    |exactWave theta a| = |Real.sin (angle theta)| * (decay a * 8191) := by
  rw [exactWave, mul_assoc, abs_mul, abs_of_pos (crest_pos a)]

theorem exactWave_abs_le (theta : BitVec 32) (a : Nat) : |exactWave theta a| ≤ decay a * 8191 := by
  rw [exactWave_abs]
  nlinarith [Real.abs_sin_le_one (angle theta), crest_pos a]

theorem exactWave_anti (theta : BitVec 32) {a b : Nat} (h : a ≤ b) : |exactWave theta b| ≤ |exactWave theta a| := by
  rw [exactWave_abs, exactWave_abs]
  have := decay_anti h
  gcongr

theorem exactWave_crest (a : Nat) : exactWave (BitVec.ofNat 32 (2 ^ 30)) a = decay a * 8191 := by
  rw [exactWave, sin_angle_crest, one_mul]

section
variable {f : BitVec 32 → Nat → Int} (hf : IsExactOpWave f 8191 6143)
include hf

theorem IsExactOpWave.isTrunc {a : Nat} (h : a ≤ 6143) (theta : BitVec 32) :
    IsTrunc (exactWave theta a) (f theta a) := by
  have := (hf theta a).2 h
  simpa [exactWave, angle, decay] using this

/-- Phases of equal sine have equal outputs. -/
theorem IsExactOpWave.congr {t u : BitVec 32} (h : Real.sin (angle t) = Real.sin (angle u)) (a : Nat) :
    f t a = f u a := by
  rcases le_or_gt a 6143 with ha | ha
  · have ht := hf.isTrunc ha t
    rw [exactWave, h] at ht
    exact ht.eq (hf.isTrunc ha u)
  · rw [(hf t a).1 ha, (hf u a).1 ha]

/-- Phases of opposite sine have opposite outputs. -/
theorem IsExactOpWave.neg {t u : BitVec 32} (h : Real.sin (angle t) = -Real.sin (angle u)) (a : Nat) :
    f t a = -f u a := by
  rcases le_or_gt a 6143 with ha | ha
  · have ht := hf.isTrunc ha t
    rw [exactWave, h, neg_mul, neg_mul] at ht
    exact (hf.isTrunc ha u).eq_neg ht
  · rw [(hf t a).1 ha, (hf u a).1 ha, neg_zero]

theorem IsExactOpWave.anti (theta : BitVec 32) {a b : Nat} (h : a ≤ b) : (f theta b).natAbs ≤ (f theta a).natAbs := by
  rcases le_or_gt b 6143 with hb | hb
  · exact (hf.isTrunc hb theta).natAbs_le (hf.isTrunc (h.trans hb) theta) (exactWave_anti theta h)
  · rw [(hf theta b).1 hb]
    exact Nat.zero_le _

/-- The output's magnitude is below any whole number that the decayed peak is below. -/
theorem IsExactOpWave.natAbs_lt {a k : Nat} (h : decay a * 8191 < k) (theta : BitVec 32) : (f theta a).natAbs < k := by
  have hk : 0 < k := by
    have := crest_pos a
    exact_mod_cast this.trans h
  rcases le_or_gt a 6143 with ha | ha
  · rw [(hf.isTrunc ha theta).natAbs, Nat.floor_lt (abs_nonneg _)]
    exact (exactWave_abs_le theta a).trans_lt h
  · rw [(hf theta a).1 ha]
    exact hk

theorem IsExactOpWave.crest {a k : Nat} (ha : a ≤ 6143) (hlo : (k : ℝ) ≤ decay a * 8191)
    (hhi : decay a * 8191 < (k + 1 : Nat)) : f (BitVec.ofNat 32 (2 ^ 30)) a = k := by
  have ht := hf.isTrunc ha (BitVec.ofNat 32 (2 ^ 30))
  rw [exactWave_crest] at ht
  exact ht.eq_of_bounds hlo (by exact_mod_cast hhi)

/-- At attenuation 0 the output is the truncated multiple of the sine. -/
theorem IsExactOpWave.at_zero {theta : BitVec 32} {k : Nat} {x : ℝ} (hx : Real.sin (angle theta) = x)
    (hlo : (k : ℝ) ≤ x * 8191) (hhi : x * 8191 < k + 1) : f theta 0 = k := by
  have ht := hf.isTrunc (Nat.zero_le _) theta
  rw [exactWave, decay_zero, mul_one, hx] at ht
  exact ht.eq_of_bounds hlo hhi

/-- The first inaudible attenuation, `8191^128 < 10^501` (41 R113). -/
theorem IsExactOpWave.quiet {a : Nat} (h : 5010 ≤ a) (theta : BitVec 32) : f theta a = 0 := by
  have hpow : 8191 ^ 128 < 1 ^ 128 * 10 ^ (3 * 167) :=
    calc 8191 ^ 128 < 1 ^ 128 * (10 ^ 3) ^ 167 := by norm_num
      _ = 1 ^ 128 * 10 ^ (3 * 167) := congrArg _ (pow_mul 10 3 167).symm
  have hlt : decay 5010 * 8191 < (1 : Nat) := crest_lt rfl hpow
  have := hf.natAbs_lt hlt theta
  have := hf.anti theta h
  omega

/-- The named properties of 41 R113, each from the sine or from the decay. -/
theorem IsExactOpWave.laws : OpWaveLaws f 8191 6143 6144 where
  bound theta a := by
    have hlt : decay a * 8191 < (8192 : Nat) := by
      have := decay_le_one a
      push_cast
      linarith
    have := hf.natAbs_lt hlt theta
    omega
  zeroPhase a := by
    have h0 := hf.neg (sin_angle_neg 0) a
    have hhalf := hf.neg (sin_angle_half 0) a
    have hzero : f 0 a = 0 := by
      rw [show (-0 : BitVec 32) = 0 from rfl] at h0
      omega
    refine ⟨hzero, ?_⟩
    rw [show (0 + BitVec.ofNat 32 (2 ^ 31) : BitVec 32) = BitVec.ofNat 32 (2 ^ 31) from rfl, hzero] at hhalf
    exact hhalf
  odd theta := hf.neg (sin_angle_neg theta)
  half theta := hf.neg (sin_angle_half theta)
  mirror theta a h := hf.congr (sin_angle_mirror h) a
  sign theta a := by
    have hpos := crest_pos a
    rcases le_or_gt a 6143 with ha | ha
    · have ht := hf.isTrunc ha theta
      rw [exactWave, mul_assoc] at ht
      exact ⟨fun h => ht.nonneg (mul_nonneg (sin_angle_nonneg h) hpos.le),
        fun h => ht.nonpos (mul_nonpos_of_nonpos_of_nonneg (sin_angle_nonpos h) hpos.le)⟩
    · rw [(hf theta a).1 ha]
      exact ⟨fun _ => le_rfl, fun _ => le_rfl⟩
  atPeak := by
    have hcrest : f (BitVec.ofNat 32 (2 ^ 30)) 0 = 8191 := by
      refine hf.crest (k := 8191) (by decide) ?_ ?_ <;> rw [decay_zero] <;> norm_num
    refine ⟨hcrest, ?_⟩
    have htrough := hf.neg (sin_angle_neg (BitVec.ofNat 32 (2 ^ 30))) 0
    rw [hcrest] at htrough
    exact htrough
  monoAtt theta _ _ := hf.anti theta
  quietZero theta a := (hf theta a).1
  quietPeak _ theta _ h := hf.quiet h theta
  silent theta := (hf theta 6144).1 (by decide)

end

/-- Settles O43 (41 R113). -/
theorem exactOpWaveHasNamedProperties : Obligations.ExactOpWaveHasNamedProperties := fun _ hf => hf.laws

/-! ## The sample values -/

theorem sin_angle_sixteenth : Real.sin (angle 0x08000000#32) = √(2 - √(2 + √2)) / 2 := by
  have hangle : angle 0x08000000#32 = Real.pi / 16 := by
    rw [angle, show (0x08000000#32).toNat = 134217728 from rfl]
    push_cast
    ring
  rw [hangle, Real.sin_pi_div_sixteen]

theorem sin_angle_eighth : Real.sin (angle 0x10000000#32) = √(2 - √2) / 2 := by
  have hangle : angle 0x10000000#32 = Real.pi / 8 := by
    rw [angle, show (0x10000000#32).toNat = 268435456 from rfl]
    push_cast
    ring
  rw [hangle, Real.sin_pi_div_eight]

theorem sin_angle_quarter : Real.sin (angle 0x20000000#32) = √2 / 2 := by
  have hangle : angle 0x20000000#32 = Real.pi / 4 := by
    rw [angle, show (0x20000000#32).toNat = 536870912 from rfl]
    push_cast
    ring
  rw [hangle, Real.sin_pi_div_four]

theorem sqrt_two_bounds : (1.41421 : ℝ) < √2 ∧ √2 < 1.41422 :=
  ⟨Real.lt_sqrt_of_sq_lt (by norm_num), (Real.sqrt_lt' (by norm_num)).2 (by norm_num)⟩

theorem sqrt_two_sub_bounds : (0.76536 : ℝ) < √(2 - √2) ∧ √(2 - √2) < 0.76538 := by
  obtain ⟨hlo, hhi⟩ := sqrt_two_bounds
  exact ⟨Real.lt_sqrt_of_sq_lt (by norm_num; linarith), (Real.sqrt_lt' (by norm_num)).2 (by norm_num; linarith)⟩

theorem sqrt_two_sub_sqrt_bounds : (0.390175 : ℝ) < √(2 - √(2 + √2)) ∧ √(2 - √(2 + √2)) < 0.390184 := by
  obtain ⟨hlo, hhi⟩ := sqrt_two_bounds
  have hlo' : (1.847757 : ℝ) < √(2 + √2) := Real.lt_sqrt_of_sq_lt (by norm_num; linarith)
  have hhi' : √(2 + √2) < 1.847762 := (Real.sqrt_lt' (by norm_num)).2 (by norm_num; linarith)
  exact ⟨Real.lt_sqrt_of_sq_lt (by norm_num; linarith), (Real.sqrt_lt' (by norm_num)).2 (by norm_num; linarith)⟩

/-- `10 * 8176^1280 ≤ 8191^1280 < 10 * 8177^1280`: the crest at attenuation 1. -/
theorem crest_one : ((8176 : Nat) : ℝ) ≤ decay 1 * 8191 ∧ decay 1 * 8191 < (8177 : Nat) := by
  constructor
  · refine le_crest (d := 16 * 80) (e := 1) (by decide) rfl ?_
    rw [pow_mul, pow_mul]
    norm_num
  · refine crest_lt (d := 16 * 80) (e := 1) rfl ?_
    rw [pow_mul, pow_mul]
    norm_num

/-- `8 * 10^500 ≤ 8191^128` and `8191^4 < 2^4 * 10^15`: the crest at the last audible attenuation. -/
theorem crest_last : ((1 : Nat) : ℝ) ≤ decay 5009 * 8191 ∧ decay 5009 * 8191 < (2 : Nat) := by
  constructor
  · refine le_crest (d := 128 * 10) (e := 250 * 20 + 9) (by decide) rfl ?_
    calc 1 ^ (128 * 10) * 10 ^ (250 * 20 + 9) = (10 ^ 250) ^ 20 * 10 ^ 9 := by
          rw [one_pow, one_mul, pow_add, pow_mul]
      _ ≤ (10 ^ 250) ^ 20 * 8 ^ 10 := Nat.mul_le_mul_left _ (by norm_num)
      _ = ((10 ^ 250) ^ 2 * 8) ^ 10 := by rw [mul_pow, ← pow_mul (10 ^ 250)]
      _ ≤ (8191 ^ 128) ^ 10 := Nat.pow_le_pow_left (by norm_num) 10
      _ = 8191 ^ (128 * 10) := (pow_mul 8191 128 10).symm
  · have hearlier : decay 4800 * 8191 < (2 : Nat) := crest_lt (d := 4) (e := 15) rfl (by norm_num)
    have := decay_anti (show 4800 ≤ 5009 by decide)
    linarith

/-- Settles O45 (41 R113): the phases by the sine of a fraction of the circle and the symmetries, the crest by powers of
ten. -/
theorem exactOpWaveSampleValues : Obligations.ExactOpWaveSampleValues := by
  intro f hf
  have laws := hf.laws
  have hquarter : f 0x20000000#32 0 = 5791 := by
    obtain ⟨hlo, hhi⟩ := sqrt_two_bounds
    refine hf.at_zero (k := 5791) sin_angle_quarter ?_ ?_ <;> norm_num <;> linarith
  have hcrest : ∀ {a d e k : Nat}, a ≤ 6143 → d ≠ 0 → a * d = 1280 * e → k ^ d * 10 ^ e ≤ 8191 ^ d →
      8191 ^ d < (k + 1) ^ d * 10 ^ e → f 0x40000000#32 a = k :=
    fun ha hd h hlo hhi => hf.crest ha (le_crest hd h hlo) (crest_lt h hhi)
  refine ⟨(laws.zeroPhase 0).1, ?_, ?_, hquarter, laws.atPeak.1, ?_, (laws.zeroPhase 0).2, ?_, laws.atPeak.2, ?_, ?_,
    ?_, ?_, ?_, ?_, ?_, ?_, laws.quietPeak rfl _ _ (by decide), laws.quietPeak rfl _ _ (by decide),
    laws.silent _⟩
  · obtain ⟨hlo, hhi⟩ := sqrt_two_sub_sqrt_bounds
    refine hf.at_zero (k := 1597) sin_angle_sixteenth ?_ ?_ <;> norm_num <;> linarith
  · obtain ⟨hlo, hhi⟩ := sqrt_two_sub_bounds
    refine hf.at_zero (k := 3134) sin_angle_eighth ?_ ?_ <;> norm_num <;> linarith
  · exact (laws.mirror 0x20000000#32 0 (by decide)).trans hquarter
  · exact (laws.half 0x20000000#32 0).trans (congrArg Neg.neg hquarter)
  · exact hf.crest (by decide) crest_one.1 crest_one.2
  · exact hcrest (d := 80) (e := 3) (k := 7513) (by decide) (by decide) rfl (by norm_num) (by norm_num)
  · exact hcrest (d := 20) (e := 1) (k := 7300) (by decide) (by decide) rfl (by norm_num) (by norm_num)
  · exact hcrest (d := 20) (e := 3) (k := 5798) (by decide) (by decide) rfl (by norm_num) (by norm_num)
  · exact hcrest (d := 10) (e := 3) (k := 4105) (by decide) (by decide) rfl (by norm_num) (by norm_num)
  · exact hcrest (d := 1) (e := 1) (k := 819) (by decide) (by decide) rfl (by norm_num) (by norm_num)
  · exact hcrest (d := 1) (e := 2) (k := 81) (by decide) (by decide) rfl (by norm_num) (by norm_num)
  · exact hf.crest (by decide) crest_last.1 crest_last.2

end Sys2Proof.Machine
